-- ==== Sys2Proof/Word.lean ====
section
/-! DEFINITION. The word types of the block: every data byte port is 8 bits, the descriptor is 40 bits, the sequence
numbers are 3 bits (R10).  All values are unsigned (R11).  A one-bit register is a `Bool`. -/

namespace Sys2Proof

/-- A byte of the payload, of a frame or of the wire (R10, R11). -/
abbrev Byte := BitVec 8

/-- A command descriptor `DESC40`, a parallel 40-bit word with no byte order (R39, R47). -/
abbrev Desc := BitVec 40

/-- A sequence number `frame_num` or `ack_num`, modulo 8 (R10). -/
abbrev SeqNum := BitVec 3

/-- The CRC register's width (R16). -/
abbrev Word16 := BitVec 16

end Sys2Proof
end

