-- ==== Sys2Proof/Syntax.lean ====
section
/-! DEFINITION. The instruction set: one constructor per row of spec/opcode_table.json, that is, one per frame kind
(R4, R48).  Every command is one 40-bit descriptor with the same fields (R46, R47); a kind that does not use a field
ignores it, but the field is latched (R19) and stands in the `Accept` event (R41), so every constructor carries all
of them. -/

namespace Sys2Proof

/-- The six frame kinds of R48, in the order of their `KIND` codes. -/
inductive FrameKind where
  | data | ack | nak | rst | rstack | error
  deriving DecidableEq, Repr

/-- The fields of a descriptor but `KIND` (R47, R49): unsigned, no scaling, no offset. -/
structure Fields where
  /-- `FRM`, bits 5:3 -/
  frm : SeqNum
  /-- `ACKN`, bits 8:6 -/
  ack : SeqNum
  /-- `RETX`, bit 9 -/
  retx : Bool
  /-- `NRDY`, bit 10 -/
  nrdy : Bool
  /-- bits 15:11, "ignored by the block; the command source should drive 0" -/
  rsvd : BitVec 5
  /-- `LEN`, bits 23:16 -/
  len : BitVec 8
  /-- `VER`, bits 31:24 -/
  ver : Byte
  /-- `CODE`, bits 39:32 -/
  code : Byte
  deriving DecidableEq, Repr

/-- A frame-encode command (R4). -/
inductive Instr where
  /-- encode a DATA frame (R85) -/
  | data (f : Fields)
  /-- encode an ACK frame (R87) -/
  | ack (f : Fields)
  /-- encode a NAK frame (R88) -/
  | nak (f : Fields)
  /-- encode an RST frame (R89) -/
  | rst (f : Fields)
  /-- encode an RSTACK frame (R90) -/
  | rstack (f : Fields)
  /-- encode an ERROR frame (R91) -/
  | error (f : Fields)
  deriving DecidableEq, Repr

/-- The frame kind a command names (R48). -/
def Instr.kind : Instr → FrameKind
  | .data _ => .data
  | .ack _ => .ack
  | .nak _ => .nak
  | .rst _ => .rst
  | .rstack _ => .rstack
  | .error _ => .error

/-- The descriptor fields of a command (R47). -/
def Instr.fields : Instr → Fields
  | .data f => f
  | .ack f => f
  | .nak f => f
  | .rst f => f
  | .rstack f => f
  | .error f => f

/-- The command of a kind with given fields. -/
def Instr.ofKind : FrameKind → Fields → Instr
  | .data, f => .data f
  | .ack, f => .ack f
  | .nak, f => .nak f
  | .rst, f => .rst f
  | .rstack, f => .rstack f
  | .error, f => .error f

end Sys2Proof
end

