-- ==== Sys2Proof/Decode.lean ====
section
/-! DEFINITION. Decoding and encoding of descriptors (R46 to R50, R60).  `decode` is total on all 2^40 descriptors
and rejects by name exactly those whose `KIND` is 6 or 7; it checks nothing else, since the length of a DATA
command is checked by ACCEPT against the configuration (R95). -/

namespace Sys2Proof

/-- The reasons a descriptor is no command. -/
inductive DecodeError where
  /-- `KIND` is 6 or 7 (R48): ACCEPT refuses it with `ILLEGAL_KIND`, an architected outcome. -/
  | illegalKind
  deriving DecidableEq, Repr

/-- The `KIND` code of a frame kind (R48). -/
def FrameKind.toCode : FrameKind → BitVec 3
  | .data => 0
  | .ack => 1
  | .nak => 2
  | .rst => 3
  | .rstack => 4
  | .error => 5

/-- The frame kind of a `KIND` code; 6 and 7 name none (R48). -/
def FrameKind.ofCode (c : BitVec 3) : Option FrameKind :=
  if c = 0 then some .data
  else if c = 1 then some .ack
  else if c = 2 then some .nak
  else if c = 3 then some .rst
  else if c = 4 then some .rstack
  else if c = 5 then some .error
  else none

/-- `desc[2:0]` (R47). -/
def descKind (d : Desc) : BitVec 3 := d.extractLsb' 0 3

/-- The operand fields, at the bit positions of R47 (R49). -/
def descFields (d : Desc) : Fields where
  frm := d.extractLsb' 3 3
  ack := d.extractLsb' 6 3
  retx := d.getLsbD 9
  nrdy := d.getLsbD 10
  rsvd := d.extractLsb' 11 5
  len := d.extractLsb' 16 8
  ver := d.extractLsb' 24 8
  code := d.extractLsb' 32 8

/-- The command a descriptor holds, or why it holds none (R48, R60). -/
def decode (d : Desc) : Except DecodeError Instr :=
  match FrameKind.ofCode (descKind d) with
  | some k => .ok (Instr.ofKind k (descFields d))
  | none => .error .illegalKind

/-- The descriptor with given fields: the concatenation of R47, `CODE` most significant. -/
def packDesc (k : BitVec 3) (f : Fields) : Desc :=
  f.code ++ f.ver ++ f.len ++ f.rsvd ++ BitVec.ofBool f.nrdy ++ BitVec.ofBool f.retx ++ f.ack ++ f.frm ++ k

/-- The descriptor of a command (R47, R48). -/
def encode (i : Instr) : Desc := packDesc i.kind.toCode i.fields

/-- The descriptor an opcode-table word stands for: `nbits` bits as the table numbers them, every bit above them 0.
The descriptor is a parallel word (R39), so no byte order enters. -/
def tableDesc (nbits w : Nat) : Desc := BitVec.ofNat 40 (w % 2 ^ nbits)

/-- What the decoder reads from an opcode-table word. -/
def decodeTableWord (nbits w : Nat) : Option Instr :=
  match decode (tableDesc nbits w) with
  | .ok i => some i
  | .error _ => none

end Sys2Proof
end

