-- ==== Sys2Proof/Config.lean ====
section
/-! DEFINITION. The types of the block's configuration, fixed for the life of one block: the protocol constants `K`
(R9) and the two payload-length parameters (R8).  The VALUES this spec gives them stand in
`Sys2Proof/Machine/Constants.lean`.  There is no free value in this model: the spec leaves no value open
(spec/93_implementation_defined.md lists for every open point a parameter, a refusal, a fault or an exact rule). -/

namespace Sys2Proof

/-- The protocol constants, "in one configuration record `K` so that a wrong value can be corrected in one place"
(R9). -/
structure Constants where
  /-- `K_FLAG`, the frame terminator -/
  flag : Byte
  /-- `K_ESC`, the escape byte -/
  esc : Byte
  /-- `K_ESC_MASK`, the XOR mask applied to an escaped byte -/
  escMask : Byte
  /-- `K_XON` -/
  xon : Byte
  /-- `K_XOFF` -/
  xoff : Byte
  /-- `K_SUB` -/
  sub : Byte
  /-- `K_CAN` -/
  can : Byte
  /-- `K_RESERVED`, the set of bytes that are escaped -/
  reserved : List Byte
  /-- `K_CRC_POLY` -/
  crcPoly : Word16
  /-- `K_CRC_INIT` -/
  crcInit : Word16
  /-- `K_LFSR_SEED` -/
  lfsrSeed : Byte
  /-- `K_LFSR_TAP` -/
  lfsrTap : Byte
  deriving DecidableEq, Repr

/-- What one block is built with: the parameters of R8 and the constants of R9.  The lengths are `Nat`, so that a
configuration outside R8's ranges can be written down and refused (R108). -/
structure Config where
  /-- `P_MIN_DATA_PAYLOAD` -/
  minDataPayload : Nat
  /-- `P_MAX_DATA_PAYLOAD` -/
  maxDataPayload : Nat
  /-- the protocol constants `K` -/
  k : Constants
  deriving DecidableEq, Repr

end Sys2Proof
end

