-- ==== Sys2Proof/Machine/Constants.lean ====
section
/-! DEFINITION. The values this spec gives the configuration, and which configurations have a meaning. -/

namespace Sys2Proof

/-- The values of R9 (from general knowledge of ASHv2, not in the spec's source: assumption 1). -/
def Constants.ashv2 : Constants where
  flag := 0x7E
  esc := 0x7D
  escMask := 0x20
  xon := 0x11
  xoff := 0x13
  sub := 0x18
  can := 0x1A
  reserved := [0x7E, 0x7D, 0x11, 0x13, 0x18, 0x1A]
  crcPoly := 0x1021
  crcInit := 0xFFFF
  lfsrSeed := 0x42
  lfsrTap := 0xB8

/-- The defaults "a model uses when it names none" (R8, R9). -/
def Config.default : Config where
  minDataPayload := 3
  maxDataPayload := 128
  k := .ashv2

/-- The bounds of R8 and R108: `0 ≤ MIN ≤ MAX ≤ 255` and, by R8's range, `1 ≤ MAX` (assumption 2). -/
def Config.ok (c : Config) : Bool :=
  c.minDataPayload ≤ c.maxDataPayload && 1 ≤ c.maxDataPayload && c.maxDataPayload ≤ 255

end Sys2Proof
end

