-- ==== Sys2Proof/Machine/State.lean ====
section
/-! DEFINITION. The machine's state as plain data: the record of R16, the block's configuration (R8, R9), the event
history (R41), and the agents around the block (R13, R117) as data that says what each still has to offer and which
levels the input ports are driven to.  The block has no memory and no address space (R34), so there is none here. -/

namespace Sys2Proof.Machine

/-- Why the model stops inside a step. -/
inductive Fault where
  /-- Raised by ADVANCE when it would read the command latch while the latch holds no value: "a model step that
  would read it there is a fault of the model, not a value" (R20; 93_implementation_defined.md I5).  After a reset step
  no run does (R32).  Safe (assumption 7). -/
  | latchAbsent
  deriving DecidableEq, Repr

/-- Why the model gives a step no meaning. -/
inductive Refusal where
  /-- Raised by an arm of `exec` whose instruction has no meaning yet; no arm uses it.  Safe. -/
  | notModelled (mnemonic : String)
  /-- Raised by every step before the first reset step: "a run with no reset step has no meaning and is refused"
  (R107).  Safe. -/
  | noReset
  /-- Raised by every step of a block built with a configuration outside the bounds of R8 and R108: it "has no
  meaning and is refused by a model".  Safe. -/
  | badConfig
  deriving DecidableEq, Repr

/-- `phase`, the program-counter analogue (R17).  Codes 9..15 are never written and are left out. -/
inductive Phase where
  /-- no frame in progress; the command port is ready -/
  | idle
  /-- next unstuffed byte is the control byte -/
  | ctrl
  /-- next unstuffed byte is DATA payload byte number `idx` -/
  | payload
  /-- next unstuffed byte is the version byte -/
  | version
  /-- next unstuffed byte is the reset-cause or error-code byte -/
  | code
  /-- next unstuffed byte is `crc[15:8]` -/
  | crcHi
  /-- next unstuffed byte is `crc[7:0]` -/
  | crcLo
  /-- next output byte is the terminating flag -/
  | flag
  /-- the flag is in the output slot, waiting for the sink -/
  | drain
  deriving DecidableEq, Repr

/-- `err`, the status codes of R94.  Codes 5..7 are never written and are left out. -/
inductive ErrCode where
  /-- `NONE` -/
  | noError
  /-- `ILLEGAL_KIND` -/
  | illegalKind
  /-- `OVERSIZE` -/
  | oversize
  /-- `UNDERSIZE` -/
  | undersize
  /-- `ABORTED` -/
  | aborted
  deriving DecidableEq, Repr

/-- The command latch (R19): the fields of the descriptor most recently accepted. -/
structure Latch where
  kind : FrameKind
  frm : SeqNum
  ack : SeqNum
  retx : Bool
  nrdy : Bool
  len : BitVec 8
  ver : Byte
  code : Byte
  deriving DecidableEq, Repr

/-- The events of the history (R41). -/
inductive Event where
  /-- an ACCEPT that did not refuse -/
  | accept (d : Desc)
  /-- an ACCEPT that refused -/
  | refused (c : ErrCode)
  /-- a payload byte read -/
  | pay (b : Byte)
  /-- an output byte taken by the sink, with its `out_eof` marker -/
  | out (b : Byte) (eof : Bool)
  /-- recorded with the `Out` of a byte with `eof = 1` -/
  | done
  /-- an abort that discarded a frame -/
  | aborted
  /-- a reset step -/
  | reset
  deriving DecidableEq, Repr

/-- The levels of the one-bit input ports of R34.  `cmdValid` and `plValid` say whether the source offers its next
item, if it has one. -/
structure Pins where
  rst : Bool
  abort : Bool
  cmdValid : Bool
  plValid : Bool
  outReady : Bool
  deriving DecidableEq, Repr

/-- One move of the environment (R117): it drives the input ports anew, and a source may replace what it still has
to offer (submit more, withdraw an offer not yet taken, withdraw the unread bytes of a frame cut short). -/
structure Move where
  pins : Pins
  cmds : Option (List Desc)
  payload : Option (List Byte)
  deriving DecidableEq, Repr

/-- The agents around the block (R13, R117), the model's own representation (assumption 3).  One move of `script` is
made before each step; with none left the ports keep their levels. -/
structure Env where
  /-- the levels the input ports are driven to -/
  pins : Pins
  /-- the descriptors the command source still has to offer, in order: `cmd_desc` is the first -/
  cmds : List Desc
  /-- the bytes the payload source still has to offer, in order: `pl_data` is the first -/
  payload : List Byte
  /-- the moves the environment has still to make -/
  script : List Move
  deriving DecidableEq, Repr

/-- The machine's state.  From `phase` to `err` it is the record of R16. -/
structure State where
  /-- the block's parameters and constants (R8, R9): no step changes them -/
  cfg : Config
  /-- a reset step has been taken (R107; the model's own) -/
  resetSeen : Bool
  /-- 4 bits (R17) -/
  phase : Phase
  /-- payload bytes of the current frame already read (R18) -/
  idx : BitVec 8
  /-- `k_kind .. k_code`; `none`: it holds no value (R19, R20) -/
  latch : Option Latch
  /-- running CRC of the unstuffed bytes (R21) -/
  crc : Word16
  /-- the randomizer register (R22) -/
  lfsr : Byte
  /-- the second byte of an escape pair is pending (R23) -/
  escPend : Bool
  /-- that byte (R23) -/
  escByte : Byte
  /-- the output slot holds a byte (R24) -/
  outFull : Bool
  /-- that byte (R24) -/
  outByte : Byte
  /-- it is the frame's terminating flag (R24) -/
  outLast : Bool
  /-- the outcome of the most recent ACCEPT or abort (R27) -/
  err : ErrCode
  /-- the observable behaviour so far, oldest first (R41) -/
  history : List Event
  /-- the agents around the block -/
  env : Env
  deriving DecidableEq, Repr

/-- Input levels with no reset and no abort, both sources offering what they have and the sink taking every byte. -/
def Pins.prompt : Pins where
  rst := false
  abort := false
  cmdValid := true
  plValid := true
  outReady := true

/-- An environment that has nothing to offer (assumption 4: the levels are the model's choice; with empty sources
and an empty output slot they have no effect). -/
def Env.quiet : Env where
  pins := .prompt
  cmds := []
  payload := []
  script := []

/-- The state right after a reset step from power-on, with the default configuration (R33, R105): the block waits
for a command. -/
def State.reset : State where
  cfg := .default
  resetSeen := true
  phase := .idle
  idx := 0
  latch := none
  crc := Config.default.k.crcInit
  lfsr := Config.default.k.lfsrSeed
  escPend := false
  escByte := 0x00
  outFull := false
  outByte := 0x00
  outLast := false
  err := .noError
  history := [.reset]
  env := .quiet

end Sys2Proof.Machine
end

