-- ==== Sys2Proof/Machine/Flags.lean ====
section
/-! DEFINITION. The status word, the codes of `phase` and `err`, the length checks of ACCEPT, and the output ports
of R34 as functions of the state. -/

namespace Sys2Proof.Machine

/-- The 4-bit encodings of `phase` (R17). -/
def Phase.toCode : Phase → BitVec 4
  | .idle => 0
  | .ctrl => 1
  | .payload => 2
  | .version => 3
  | .code => 4
  | .crcHi => 5
  | .crcLo => 6
  | .flag => 7
  | .drain => 8

/-- The 3-bit status codes (R94). -/
def ErrCode.toCode : ErrCode → BitVec 3
  | .noError => 0
  | .illegalKind => 1
  | .oversize => 2
  | .undersize => 3
  | .aborted => 4

/-- The length checks ACCEPT makes for a DATA command, in the order of R95: too long first, then too short. -/
def lengthRefusal (c : Config) (len : BitVec 8) : Option ErrCode :=
  if c.maxDataPayload < len.toNat then some .oversize
  else if len.toNat < c.minDataPayload then some .undersize
  else none

/-- `STATUS.BUSY` (R26). -/
def State.busy (s : State) : Bool := s.phase ≠ .idle

/-- `STATUS[7:0]`: reserved bits 7:4 read 0, `ERR` in 3:1, `BUSY` in bit 0 (R25). -/
def State.status (s : State) : BitVec 8 :=
  0#4 ++ s.err.toCode ++ BitVec.ofBool s.busy

/-- `cmd_ready` (R28). -/
def State.cmdReady (s : State) : Bool := s.phase = .idle

/-- `pl_ready` (R29). -/
def State.plReady (s : State) : Bool := s.phase = .payload && !s.outFull && !s.escPend

/-- `out_valid` (R30). -/
def State.outValid (s : State) : Bool := s.outFull

/-- `out_data` (R30). -/
def State.outData (s : State) : Byte := s.outByte

/-- `out_eof` (R30). -/
def State.outEof (s : State) : Bool := s.outLast

/-- `cmd_valid`: the command source offers a descriptor (R34). -/
def State.cmdValid (s : State) : Bool := s.env.pins.cmdValid && !s.env.cmds.isEmpty

/-- `pl_valid`: the payload source offers a byte (R34). -/
def State.plValid (s : State) : Bool := s.env.pins.plValid && !s.env.payload.isEmpty

/-- The events a step recorded: the history only grows at its end (R41). -/
def newEvents (before after : State) : List Event := after.history.drop before.history.length

/-- An event that fires the `evt_err` strobe (R99). -/
def Event.firesErr : Event → Bool
  | .refused _ => true
  | .aborted => true
  | .accept _ => false
  | .pay _ => false
  | .out _ _ => false
  | .done => false
  | .reset => false

/-- The `evt_done` strobe of the step from `before` to `after` (R99). -/
def evtDone (before after : State) : Bool := (newEvents before after).contains .done

/-- The `evt_err` strobe of the step from `before` to `after` (R99). -/
def evtErr (before after : State) : Bool := (newEvents before after).any Event.firesErr

end Sys2Proof.Machine
end

