-- ==== Sys2Proof/Machine/Operands.lean ====
section
/-! DEFINITION. Operands: what ACCEPT latches from a command (R19, R49) and the control byte and body bytes a frame
takes from the latch (R50 to R56, R70). -/

namespace Sys2Proof.Machine

/-- The eight latched fields of a command; bits 15:11 are not latched (R19, R49). -/
def latchOf (i : Instr) : Latch where
  kind := i.kind
  frm := i.fields.frm
  ack := i.fields.ack
  retx := i.fields.retx
  nrdy := i.fields.nrdy
  len := i.fields.len
  ver := i.fields.ver
  code := i.fields.code

/-- DATA control byte `0FFFRAAA` (R52). -/
def dataCtrl (frm : SeqNum) (retx : Bool) (ack : SeqNum) : Byte :=
  0#1 ++ frm ++ BitVec.ofBool retx ++ ack

/-- ACK control byte `1000NAAA` (R53). -/
def ackCtrl (nrdy : Bool) (ack : SeqNum) : Byte :=
  0b100#3 ++ 0#1 ++ BitVec.ofBool nrdy ++ ack

/-- NAK control byte `1010NAAA` (R54). -/
def nakCtrl (nrdy : Bool) (ack : SeqNum) : Byte :=
  0b101#3 ++ 0#1 ++ BitVec.ofBool nrdy ++ ack

/-- RST control byte (R55). -/
def rstCtrl : Byte := 0xC0

/-- RSTACK control byte (R55). -/
def rstackCtrl : Byte := 0xC1

/-- ERROR control byte (R55). -/
def errorCtrl : Byte := 0xC2

/-- `ctrl_byte` (R70). -/
def ctrlByte (k : Latch) : Byte :=
  match k.kind with
  | .data => dataCtrl k.frm k.retx k.ack
  | .ack => ackCtrl k.nrdy k.ack
  | .nak => nakCtrl k.nrdy k.ack
  | .rst => rstCtrl
  | .rstack => rstackCtrl
  | .error => errorCtrl

/-- The number of payload bytes a command reads: `LEN` for DATA, none for any other kind, whatever `LEN` holds
(R36, R50). -/
def payloadNeed (k : Latch) : Nat :=
  match k.kind with
  | .data => k.len.toNat
  | .ack => 0
  | .nak => 0
  | .rst => 0
  | .rstack => 0
  | .error => 0

/-- `succ_ctrl`: what follows the control byte (R74). -/
def succCtrl (k : Latch) : Phase :=
  match k.kind with
  | .data => if k.len = 0 then .crcHi else .payload
  | .ack => .crcHi
  | .nak => .crcHi
  | .rst => .crcHi
  | .rstack => .version
  | .error => .version

/-- `crc[15:8]`, the CRC byte sent first (R38). -/
def crcHigh (c : Word16) : Byte := c.extractLsb' 8 8

/-- `crc[7:0]`, the CRC byte sent second (R38). -/
def crcLow (c : Word16) : Byte := c.extractLsb' 0 8

end Sys2Proof.Machine
end

