-- ==== Sys2Proof/Machine/Ops.lean ====
section
/-! DEFINITION. The shared operations: CRC, randomizer and stuffing (R63 to R68), the pseudocode primitives of R12,
the two halves of ACCEPT (start a frame, refuse: R71, R93), abort (R97, R98) and reset (R105). -/

namespace Sys2Proof.Machine

/-- One bit of `crc_step` (R63): shift out the top bit and, if it was 1, add the polynomial. -/
def crcBit (poly c : Word16) : Word16 :=
  if c.getLsbD 15 then (c <<< 1) ^^^ poly else c <<< 1

/-- `crcBit` repeated. -/
def crcBits (poly : Word16) : Nat → Word16 → Word16
  | 0, c => c
  | n + 1, c => crcBits poly n (crcBit poly c)

/-- `crc_step` (R63): absorb one byte, most significant bit first, no reflection. -/
def crcStep (k : Constants) (c : Word16) (b : Byte) : Word16 :=
  crcBits k.crcPoly 8 (c ^^^ (b.zeroExtend 16 <<< 8))

/-- The running CRC after a byte sequence, from a given register value (R64). -/
def crcFrom (k : Constants) (c : Word16) (q : List Byte) : Word16 := q.foldl (crcStep k) c

/-- `crc16` (R64): no final XOR, no complement. -/
def crc16 (k : Constants) (q : List Byte) : Word16 := crcFrom k k.crcInit q

/-- `lfsr_step` (R66). -/
def lfsrStep (k : Constants) (r : Byte) : Byte :=
  if r.getLsbD 0 then (r >>> 1) ^^^ k.lfsrTap else r >>> 1

/-- `u ∈ K_RESERVED` (R9, R68). -/
def isReserved (k : Constants) (u : Byte) : Bool := k.reserved.contains u

/-- The second byte of an escape pair (R68). -/
def escaped (k : Constants) (u : Byte) : Byte := u ^^^ k.escMask

/-- `Event(e)` (R12, R41), for the events of one step in order. -/
def State.record (s : State) (es : List Event) : State := { s with history := s.history ++ es }

/-- `OutPut(b, last)` (R24). -/
def State.outPut (s : State) (b : Byte) (last : Bool) : State :=
  { s with outFull := true, outByte := b, outLast := last }

/-- `put_stuffed(u)` (R73). -/
def State.putStuffed (s : State) (u : Byte) : State :=
  if isReserved s.cfg.k u then
    { s.outPut s.cfg.k.esc false with escPend := true, escByte := escaped s.cfg.k u }
  else
    s.outPut u false

/-- The CRC absorbs an unstuffed byte (R21). -/
def State.absorb (s : State) (u : Byte) : State := { s with crc := crcStep s.cfg.k s.crc u }

/-- The payload source's next byte is taken (R36). -/
def State.dropPayload (s : State) : State := { s with env := { s.env with payload := s.env.payload.tail } }

/-- The command source's offered descriptor is taken (R35, R93). -/
def State.dropCmd (s : State) : State := { s with env := { s.env with cmds := s.env.cmds.tail } }

/-- The command channel may transfer (R28, R35, R100): the block is idle and neither reset nor abort is asserted. -/
def State.canTransfer (s : State) : Bool := s.cmdReady && !s.env.pins.rst && !s.env.pins.abort

/-- A descriptor offered to the block: it is taken, with the effect `taken`, when the channel can transfer;
otherwise it "is not taken and has no effect" (R35). -/
def State.transfer (s : State) (taken : State) : Host.Outcome State Fault Refusal :=
  if s.canTransfer then .next taken else .next s

/-- The accepting half of ACCEPT (R71): all eight latch fields are written at once (R19), the datapath registers are
initialised, and the frame begins. -/
def State.startFrame (s : State) (i : Instr) : State :=
  { s with
    latch := some (latchOf i), idx := 0, crc := s.cfg.k.crcInit, lfsr := s.cfg.k.lfsrSeed,
    err := .noError, phase := .ctrl }.record [.accept (encode i)]

/-- `raise Refuse(code)` (R93), the block's one exceptional entry: it records the code and changes nothing else of
the block, which stays idle. There is no return from it (R101). -/
def State.refuse (s : State) (c : ErrCode) : State := { s with err := c }.record [.refused c]

/-- The abort step (R97); when idle it "changes nothing and records nothing" (R98). -/
def State.abortStep (s : State) : State :=
  if s.phase = .idle then s
  else { s with phase := .idle, outFull := false, escPend := false, err := .aborted }.record [.aborted]

/-- The reset step (R105). The configuration is fixed (R8), and what the sources still have to offer stays with them
(R106). -/
def State.resetStep (s : State) : State :=
  { s with
    resetSeen := true, phase := .idle, idx := 0, crc := s.cfg.k.crcInit, lfsr := s.cfg.k.lfsrSeed,
    escPend := false, escByte := 0x00, outFull := false, outByte := 0x00, outLast := false,
    err := .noError, latch := none }.record [.reset]

end Sys2Proof.Machine
end

