-- ==== Sys2Proof/Machine/AckNak.lean ====
section
/-! DEFINITION. The ACK and NAK commands (R87, R88): every descriptor of these kinds is accepted; `LEN` is not
checked and no payload is read. -/

namespace Sys2Proof.Machine

/-- ACK (R87). -/
def execAck (f : Fields) (s : State) : Host.Outcome State Fault Refusal := s.transfer (s.startFrame (.ack f))

/-- NAK (R88). -/
def execNak (f : Fields) (s : State) : Host.Outcome State Fault Refusal := s.transfer (s.startFrame (.nak f))

end Sys2Proof.Machine
end

