-- ==== Sys2Proof/Machine/DataFrame.lean ====
section
/-! DEFINITION. The DATA command (R85): what taking its descriptor does (R71).  The bytes of its frame are then
produced by ADVANCE and EMIT (`Streaming.lean`), and are those of `encodeFrame` (R77, R78). -/

namespace Sys2Proof.Machine

/-- DATA (R85): the two length checks of R95, in that order; a DATA command that passes both starts its frame. -/
def execData (f : Fields) (s : State) : Host.Outcome State Fault Refusal :=
  match lengthRefusal s.cfg f.len with
  | some c => s.transfer (s.refuse c)
  | none => s.transfer (s.startFrame (.data f))

end Sys2Proof.Machine
end

