-- ==== Sys2Proof/Machine/ResetError.lean ====
section
/-! DEFINITION. The RST, RSTACK and ERROR commands (R89 to R91): every descriptor of these kinds is accepted;
neither the version nor the code byte is checked. -/

namespace Sys2Proof.Machine

/-- RST (R89). -/
def execRst (f : Fields) (s : State) : Host.Outcome State Fault Refusal := s.transfer (s.startFrame (.rst f))

/-- RSTACK (R90). -/
def execRstack (f : Fields) (s : State) : Host.Outcome State Fault Refusal := s.transfer (s.startFrame (.rstack f))

/-- ERROR (R91). -/
def execError (f : Fields) (s : State) : Host.Outcome State Fault Refusal := s.transfer (s.startFrame (.error f))

end Sys2Proof.Machine
end

