-- ==== Sys2Proof/Machine/Dispatch.lean ====
section
/-! DEFINITION. One arm per command (R4): what the block does when the command channel offers it. -/

namespace Sys2Proof.Machine

def exec (i : Instr) (s : State) : Host.Outcome State Fault Refusal :=
  match i with
  | .data f => Sys2Proof.Machine.execData f s
  | .ack f => Sys2Proof.Machine.execAck f s
  | .nak f => Sys2Proof.Machine.execNak f s
  | .rst f => Sys2Proof.Machine.execRst f s
  | .rstack f => Sys2Proof.Machine.execRstack f s
  | .error f => Sys2Proof.Machine.execError f s

end Sys2Proof.Machine
end

