-- ==== Sys2Proof/Machine/Streaming.lean ====
section
/-! DEFINITION. The streaming steps: ADVANCE (R72), one definition per phase, and EMIT (R75).  All reads of a step
see the state before it (R12). -/

namespace Sys2Proof.Machine

/-- ADVANCE with `esc_pend = 1`: the second byte of the pair; `phase` is unchanged (R72). -/
def State.advPending (s : State) : State := { s.outPut s.escByte false with escPend := false }

/-- ADVANCE in `CTRL` (R72, R74). -/
def State.advCtrl (s : State) (k : Latch) : State :=
  { (s.absorb (ctrlByte k)).putStuffed (ctrlByte k) with phase := succCtrl k }

/-- ADVANCE in `PAYLOAD`, reading the payload byte `b` (R72): the byte is randomized, absorbed and stuffed. The
test `idx + 1 = k_len` is exact (R18, R83). -/
def State.advPayload (s : State) (k : Latch) (b : Byte) : State :=
  let u := b ^^^ s.lfsr
  { ((s.absorb u).putStuffed u).dropPayload with
    lfsr := lfsrStep s.cfg.k s.lfsr
    idx := s.idx + 1
    phase := if s.idx.toNat + 1 = k.len.toNat then .crcHi else .payload }.record [.pay b]

/-- ADVANCE in `VERSION` (R72). -/
def State.advVersion (s : State) (k : Latch) : State :=
  { (s.absorb k.ver).putStuffed k.ver with phase := .code }

/-- ADVANCE in `CODE` (R72). -/
def State.advCode (s : State) (k : Latch) : State :=
  { (s.absorb k.code).putStuffed k.code with phase := .crcHi }

/-- ADVANCE in `CRC_HI` (R72): the CRC is read, not changed (R21). -/
def State.advCrcHi (s : State) : State := { s.putStuffed (crcHigh s.crc) with phase := .crcLo }

/-- ADVANCE in `CRC_LO` (R72). -/
def State.advCrcLo (s : State) : State := { s.putStuffed (crcLow s.crc) with phase := .flag }

/-- ADVANCE in `FLAG` (R72): the flag goes out unstuffed (R69). -/
def State.advFlag (s : State) : State := { s.outPut s.cfg.k.flag true with phase := .drain }

/-- A read of the command latch; the latch holding no value is a fault of the model (R20;
93_implementation_defined.md I5). -/
def State.withLatch (s : State) (f : Latch → State) : Host.Outcome State Fault Refusal :=
  match s.latch with
  | some k => .next (f k)
  | none => .fault .latchAbsent

/-- ADVANCE is enabled, but for reset and abort, which come first (R72, R100). -/
def State.advanceEnabled (s : State) : Bool :=
  s.phase ≠ .idle && s.phase ≠ .drain && !s.outFull && (s.phase ≠ .payload || s.escPend || s.plValid)

/-- ADVANCE (R72). In `IDLE` and `DRAIN`, and in `PAYLOAD` with no byte offered, it is not enabled and does
nothing. -/
def State.advance (s : State) : Host.Outcome State Fault Refusal :=
  if s.escPend then .next s.advPending
  else
    match s.phase with
    | .idle => .next s
    | .ctrl => s.withLatch s.advCtrl
    | .payload =>
      match s.env.payload with
      | b :: _ => s.withLatch (fun k => s.advPayload k b)
      | [] => .next s
    | .version => s.withLatch s.advVersion
    | .code => s.withLatch s.advCode
    | .crcHi => .next s.advCrcHi
    | .crcLo => .next s.advCrcLo
    | .flag => .next s.advFlag
    | .drain => .next s

/-- EMIT is enabled, but for reset and abort (R75, R100). -/
def State.emitEnabled (s : State) : Bool := s.outFull && s.env.pins.outReady

/-- EMIT (R75). -/
def State.emit (s : State) : State :=
  { s with outFull := false, phase := if s.outLast then .idle else s.phase }.record
    (.out s.outByte s.outLast :: if s.outLast then [.done] else [])

end Sys2Proof.Machine
end

