-- ==== Sys2Proof/Machine/Sequencing.lean ====
section
/-! DEFINITION. One step of the machine: the environment's move, then the one step the priority of R100 chooses. -/

namespace Sys2Proof.Machine

/-- The environment's move before a step (assumption 3): the next one of its script, if any; otherwise the input
ports keep their levels. -/
def Env.drive (e : Env) : Env :=
  match e.script with
  | [] => e
  | m :: ms =>
    { pins := m.pins, cmds := m.cmds.getD e.cmds, payload := m.payload.getD e.payload, script := ms }

/-- The state as a step sees it: its input ports driven by the environment's move. -/
def State.drive (s : State) : State := { s with env := s.env.drive }

/-- ACCEPT is enabled (R71). -/
def State.acceptEnabled (s : State) : Bool := s.canTransfer && s.cmdValid

/-- ACCEPT (R71): the offered descriptor is taken whole and decoded; a command is executed, and a descriptor that is
none is refused (R95). -/
def State.acceptStep (s : State) : Host.Outcome State Fault Refusal :=
  match s.env.cmds with
  | [] => .next s
  | d :: _ =>
    match decode d with
    | .ok i => exec i s.dropCmd
    | .error .illegalKind => .next (s.dropCmd.refuse .illegalKind)

/-- The step at given input levels. Reset comes first, then abort, then the one enabled step among ACCEPT, EMIT and
ADVANCE (R100; in a reachable state at most one is, R76). With none enabled the block waits (R111). A configuration
out of bounds (R108) and a step before the first reset (R107) are refused. -/
def State.act (s : State) : Host.Outcome State Fault Refusal :=
  if !s.cfg.ok then .refused .badConfig
  else if s.env.pins.rst then .next s.resetStep
  else if !s.resetSeen then .refused .noReset
  else if s.env.pins.abort then .next s.abortStep
  else if s.acceptEnabled then s.acceptStep
  else if s.emitEnabled then .next s.emit
  else if s.advanceEnabled then s.advance
  else .next s

/-- The machine's step. -/
def State.cycle (s : State) : Host.Outcome State Fault Refusal := s.drive.act

/-- The state with a descriptor placed so that the very next step takes it (assumption 5): the block idle with an
empty slot (R32), reset already seen, and the environment's next move offering the descriptor ahead of the others
with reset and abort released. -/
def State.offerNext (s : State) (d : Desc) : State :=
  { s with
    resetSeen := true, phase := .idle, outFull := false, escPend := false
    env := { s.env with
      cmds := d :: s.env.cmds
      script :=
        { pins := { s.env.pins with rst := false, abort := false, cmdValid := true }, cmds := none, payload := none }
          :: s.env.script } }

end Sys2Proof.Machine
end

