-- ==== Sys2Proof/Machine/Step.lean ====
section
/-! DEFINITION. The step function and the placing of an instruction, by their fixed names. -/

namespace Sys2Proof.Machine

/-- One step of the machine. -/
def step (s : State) : Host.Outcome State Fault Refusal := s.cycle

/-- The state whose next step fetches and runs the given opcode-table word. -/
def State.withFetchWord (s : State) (nbits w : Nat) : State := s.offerNext (tableDesc nbits w)

end Sys2Proof.Machine
end

