-- ==== Sys2Proof/Machine/Assembler.lean ====
section
/-! DEFINITION. The textual form of a command (R62): the commands and pseudo-commands of the syntax, the descriptor
and payload each stands for, and a reader of the text.  It has no effect on the machine. -/

namespace Sys2Proof.Machine

/-- A command of the text form, pseudo-commands included (R62). -/
inductive Command where
  | data (frm ack : SeqNum) (retx : Bool) (payload : List Byte)
  | ack (ack : SeqNum) (nrdy : Bool)
  | nak (ack : SeqNum) (nrdy : Bool)
  | rst
  | rstack (ver code : Byte)
  | error (ver code : Byte)
  /-- pseudo-command: a retransmission of a DATA frame -/
  | retx (frm ack : SeqNum) (payload : List Byte)
  /-- pseudo-command: RSTACK with the version byte of ASHv2 -/
  | rstack2 (code : Byte)
  /-- pseudo-command: ERROR with the version byte of ASHv2 -/
  | error2 (code : Byte)
  deriving DecidableEq, Repr

/-- The version byte of ASHv2 that the pseudo-commands supply (R62). -/
def ashVersion : Byte := 0x02

/-- A pseudo-command's expansion; a command is its own (R62). -/
def Command.expand : Command → Command
  | .retx f a p => .data f a true p
  | .rstack2 c => .rstack ashVersion c
  | .error2 c => .error ashVersion c
  | .data f a r p => .data f a r p
  | .ack a n => .ack a n
  | .nak a n => .nak a n
  | .rst => .rst
  | .rstack v c => .rstack v c
  | .error v c => .error v c

/-- "Every field not written is 0 in the descriptor" (R62). -/
def Fields.zero : Fields where
  frm := 0
  ack := 0
  retx := false
  nrdy := false
  rsvd := 0
  len := 0
  ver := 0
  code := 0

/-- The instruction and the payload bytes a command stands for; the payload list gives `LEN` by its length, which
the 8-bit field must hold (R62). -/
def Command.assemble (c : Command) : Option (Instr × List Byte) :=
  match c.expand with
  | .data f a r p =>
    if p.length < 256 then
      some (.data { Fields.zero with frm := f, ack := a, retx := r, len := BitVec.ofNat 8 p.length }, p)
    else none
  | .ack a n => some (.ack { Fields.zero with ack := a, nrdy := n }, [])
  | .nak a n => some (.nak { Fields.zero with ack := a, nrdy := n }, [])
  | .rst => some (.rst Fields.zero, [])
  | .rstack v c => some (.rstack { Fields.zero with ver := v, code := c }, [])
  | .error v c => some (.error { Fields.zero with ver := v, code := c }, [])
  | .retx f a p =>
    if p.length < 256 then
      some (.data { Fields.zero with frm := f, ack := a, retx := true, len := BitVec.ofNat 8 p.length }, p)
    else none
  | .rstack2 c => some (.rstack { Fields.zero with ver := ashVersion, code := c }, [])
  | .error2 c => some (.error { Fields.zero with ver := ashVersion, code := c }, [])

/-- The characters that open and close a payload list: left and right brace. -/
def openBrace : Char := Char.ofNat 123
def closeBrace : Char := Char.ofNat 125

/-- Text cut into words at blanks; a brace is a word of its own. -/
def words : List Char → List (List Char)
  | [] => []
  | c :: cs =>
    if c = ' ' ∨ c = '\t' then [] :: words cs
    else if c = openBrace ∨ c = closeBrace then [] :: [c] :: words cs
    else
      match words cs with
      | [] => [[c]]
      | w :: ws => (c :: w) :: ws

/-- The digits of a byte, by value, in the two cases they may be written in. -/
def upperDigits : List Char := "0123456789ABCDEF".toList
def lowerDigits : List Char := "0123456789abcdef".toList

/-- A digit's value is its place among the digits. -/
def hexDigit (c : Char) : Option (BitVec 4) :=
  ((upperDigits.idxOf? c).or (lowerDigits.idxOf? c)).map (BitVec.ofNat 4)

/-- A byte: two hexadecimal digits, high digit first. -/
def readDigits : List Char → Option Byte
  | [h, l] =>
    match hexDigit h, hexDigit l with
    | some x, some y => some (x ++ y)
    | _, _ => none
  | _ => none

/-- A byte is written with or without `0x`. -/
def readByte (w : List Char) : Option Byte :=
  if "0x".toList.isPrefixOf w then readDigits (w.drop 2) else readDigits w

/-- A sequence number: one of the decimal digits 0 to 7. -/
def readSeq : List Char → Option SeqNum
  | [c] => (("01234567".toList).idxOf? c).map (BitVec.ofNat 3)
  | _ => none

/-- What follows a keyword such as `frm=` in a word. -/
def afterKey (key : String) (w : List Char) : Option (List Char) :=
  if key.toList.isPrefixOf w then some (w.drop key.toList.length) else none

/-- A payload list: bytes between braces. -/
def readPayload : List (List Char) → Option (List Byte)
  | [] => none
  | o :: ws => if o = [openBrace] then readBytes ws else none
where
  readBytes : List (List Char) → Option (List Byte)
    | [] => none
    | [c] => if c = [closeBrace] then some [] else none
    | w :: ws => do return (← readByte w) :: (← readBytes ws)

/-- The optional `nrdy` at the end of an ACK or NAK command. -/
def readNrdy : List (List Char) → Option Bool
  | [] => some false
  | [w] => if w = "nrdy".toList then some true else none
  | _ => none

/-- The optional `retx` before a DATA command's payload list. -/
def readRetx : List (List Char) → Bool × List (List Char)
  | [] => (false, [])
  | w :: ws => if w = "retx".toList then (true, ws) else (false, w :: ws)

/-- A command from its words (R62). -/
def parseWords : List (List Char) → Option Command
  | [] => none
  | op :: args =>
    if op = "DATA".toList then
      match args with
      | f :: a :: rest => do
        let frm ← readSeq (← afterKey "frm=" f)
        let ack ← readSeq (← afterKey "ack=" a)
        return .data frm ack (readRetx rest).1 (← readPayload (readRetx rest).2)
      | _ => none
    else if op = "RETX".toList then
      match args with
      | f :: a :: rest => do
        let frm ← readSeq (← afterKey "frm=" f)
        let ack ← readSeq (← afterKey "ack=" a)
        return .retx frm ack (← readPayload rest)
      | _ => none
    else if op = "ACK".toList then
      match args with
      | a :: rest => do return .ack (← readSeq (← afterKey "ack=" a)) (← readNrdy rest)
      | _ => none
    else if op = "NAK".toList then
      match args with
      | a :: rest => do return .nak (← readSeq (← afterKey "ack=" a)) (← readNrdy rest)
      | _ => none
    else if op = "RST".toList then (if args = [] then some .rst else none)
    else if op = "RSTACK".toList then
      match args with
      | [v, c] => do return .rstack (← readByte (← afterKey "ver=" v)) (← readByte (← afterKey "code=" c))
      | _ => none
    else if op = "ERROR".toList then
      match args with
      | [v, c] => do return .error (← readByte (← afterKey "ver=" v)) (← readByte (← afterKey "code=" c))
      | _ => none
    else if op = "RSTACK2".toList then
      match args with
      | [c] => do return .rstack2 (← readByte (← afterKey "code=" c))
      | _ => none
    else if op = "ERROR2".toList then
      match args with
      | [c] => do return .error2 (← readByte (← afterKey "code=" c))
      | _ => none
    else none

/-- A command from its text (R62). -/
def parseCommand (text : List Char) : Option Command :=
  parseWords ((words text).filter (fun w => !w.isEmpty))

end Sys2Proof.Machine
end

