-- ==== Sys2Proof/Machine/Encode.lean ====
section
/-! DEFINITION. The frame encoder as a pure function, `Encode` (R77), and its parts: randomization of a payload
(R66, R67), stuffing of a byte sequence (R68), and the unstuffed frame of each kind (R56). -/

namespace Sys2Proof.Machine

/-- `rnd[n]`: the randomizer sequence from the seed (R66). -/
def rnd (k : Constants) : Nat → Byte
  | 0 => k.lfsrSeed
  | n + 1 => lfsrStep k (rnd k n)

/-- Randomization of payload bytes from a given randomizer register value (R67). -/
def randomizeFrom (k : Constants) : Byte → List Byte → List Byte
  | _, [] => []
  | r, b :: p => (b ^^^ r) :: randomizeFrom k (lfsrStep k r) p

/-- `R(p)`: the randomizer restarts from the seed for every DATA frame (R67). -/
def randomize (k : Constants) (p : List Byte) : List Byte := randomizeFrom k k.lfsrSeed p

/-- `stuff(u)` of one byte (R68). -/
def stuffByte (k : Constants) (u : Byte) : List Byte :=
  if isReserved k u then [k.esc, escaped k u] else [u]

/-- `stuff` of a sequence: the concatenation of the stuffing of its bytes (R68). -/
def stuff (k : Constants) (us : List Byte) : List Byte := us.flatMap (stuffByte k)

/-- The bytes of the unstuffed frame before the CRC (R56, R65). -/
def frameBody (c : Config) (k : Latch) (p : List Byte) : List Byte :=
  match k.kind with
  | .data => ctrlByte k :: randomize c.k p
  | .ack => [ctrlByte k]
  | .nak => [ctrlByte k]
  | .rst => [ctrlByte k]
  | .rstack => [ctrlByte k, k.ver, k.code]
  | .error => [ctrlByte k, k.ver, k.code]

/-- The two CRC bytes, high byte first (R38). -/
def crcBytes (x : Word16) : List Byte := [crcHigh x, crcLow x]

/-- The unstuffed frame `U` (R56). -/
def unstuffedFrame (c : Config) (k : Latch) (p : List Byte) : List Byte :=
  frameBody c k p ++ crcBytes (crc16 c.k (frameBody c k p))

/-- The wire frame `W` of an accepted command: stuffed, then one flag (R57). -/
def wireFrame (c : Config) (k : Latch) (p : List Byte) : List Byte :=
  stuff c.k (unstuffedFrame c k p) ++ [c.k.flag]

/-- The refusal ACCEPT answers a command with, if any (R95). -/
def acceptRefusal (c : Config) (i : Instr) : Option ErrCode :=
  match i with
  | .data f => lengthRefusal c f.len
  | .ack _ => none
  | .nak _ => none
  | .rst _ => none
  | .rstack _ => none
  | .error _ => none

/-- `Encode(d, p)` (R77). Its precondition on `p` is `payloadFits`. -/
def encodeFrame (c : Config) (d : Desc) (p : List Byte) : Except ErrCode (List Byte) :=
  match decode d with
  | .error .illegalKind => .error .illegalKind
  | .ok i =>
    match acceptRefusal c i with
    | some e => .error e
    | none => .ok (wireFrame c (latchOf i) p)

/-- The precondition of `Encode`: as many payload bytes as the command reads (R77). -/
def payloadFits (i : Instr) (p : List Byte) : Prop := p.length = payloadNeed (latchOf i)

end Sys2Proof.Machine
end

