-- ==== Sys2Proof/Machine/Unframe.lean ====
section
/-! DEFINITION. `Unframe`, the reference inverse of R80: a statement about this block's output, not a specification
of a decoder block (R6). -/

namespace Sys2Proof.Machine

/-- What `Unframe` returns: the fields a kind uses (R50, R80). -/
inductive Frame where
  | data (frm : SeqNum) (retx : Bool) (ack : SeqNum) (payload : List Byte)
  | ack (nrdy : Bool) (ack : SeqNum)
  | nak (nrdy : Bool) (ack : SeqNum)
  | rst
  | rstack (ver code : Byte)
  | error (ver code : Byte)
  deriving DecidableEq, Repr

/-- The frame a command and its payload stand for: exactly the fields its kind uses (R50). -/
def frameOf (i : Instr) (p : List Byte) : Frame :=
  match i with
  | .data f => .data f.frm f.retx f.ack p
  | .ack f => .ack f.nrdy f.ack
  | .nak f => .nak f.nrdy f.ack
  | .rst _ => .rst
  | .rstack f => .rstack f.ver f.code
  | .error f => .error f.ver f.code

/-- `unstuff` (R80): `K_ESC` followed by `x` gives `x ^ K_ESC_MASK`, any other byte gives itself. A `K_ESC` at the
end has no byte after it and the scan fails. -/
def unstuff (k : Constants) : List Byte → Option (List Byte)
  | [] => some []
  | [b] => if b = k.esc then none else some [b]
  | b :: x :: s =>
    if b = k.esc then (unstuff k s).map (fun t => escaped k x :: t)
    else (unstuff k (x :: s)).map (fun t => b :: t)

/-- The frame of an unstuffed body, by its control byte (R80). -/
def parseBody (k : Constants) (body : List Byte) : Option Frame :=
  match body with
  | [] => none
  | ctrl :: rest =>
    if ctrl.getLsbD 7 = false then
      some (.data (ctrl.extractLsb' 4 3) (ctrl.getLsbD 3) (ctrl.extractLsb' 0 3) (randomize k rest))
    else if ctrl.extractLsb' 4 4 = 0x8#4 ∧ rest.length = 0 then
      some (.ack (ctrl.getLsbD 3) (ctrl.extractLsb' 0 3))
    else if ctrl.extractLsb' 4 4 = 0xA#4 ∧ rest.length = 0 then
      some (.nak (ctrl.getLsbD 3) (ctrl.extractLsb' 0 3))
    else if ctrl = 0xC0 ∧ rest.length = 0 then some .rst
    else
      match rest with
      | [v, c] => if ctrl = 0xC1 then some (.rstack v c) else if ctrl = 0xC2 then some (.error v c) else none
      | _ => none

/-- The unstuffed frame with its CRC checked and parsed (R80). -/
def parseUnstuffed (k : Constants) (u : List Byte) : Option Frame :=
  let n := u.length
  if n < 3 then none
  else if crcBytes (crc16 k (u.take (n - 2))) = u.drop (n - 2) then parseBody k (u.take (n - 2))
  else none

/-- `Unframe(W)` (R80). -/
def unframe (k : Constants) (w : List Byte) : Option Frame :=
  let s := w.dropLast
  if w.getLast? = some k.flag ∧ s.contains k.flag = false then
    match unstuff k s with
    | some u => parseUnstuffed k u
    | none => none
  else none

end Sys2Proof.Machine
end

