-- ==== Sys2Proof/WellFormed.lean ====
section
/-! DEFINITION. Which commands the wire format can carry under a configuration: a DATA command's length lies in
`[P_MIN_DATA_PAYLOAD, P_MAX_DATA_PAYLOAD]`; every other command is well formed whatever its fields hold, and no
other field is ever checked (R60, R95).  A command that is not well formed still decodes, and ACCEPT refuses it
(R71).  The 40-bit layout itself needs no check: every `Fields` value has exactly the widths of R47. -/

namespace Sys2Proof

/-- A payload length a DATA command may carry (R8, R60). -/
def Config.admitsLen (c : Config) (len : BitVec 8) : Bool :=
  c.minDataPayload ≤ len.toNat && len.toNat ≤ c.maxDataPayload

/-- The command is one the block encodes rather than refuses (R60, R85 to R91). -/
def Instr.wellFormed (c : Config) : Instr → Bool
  | .data f => c.admitsLen f.len
  | .ack _ => true
  | .nak _ => true
  | .rst _ => true
  | .rstack _ => true
  | .error _ => true

end Sys2Proof
end

