-- ==== Sys2Proof/Safety.lean ====
section
/-! DEFINITION. The terms claims are stated in: the invariant of R32, what a history says of the line (R41), the bytes
a frame in progress has still to put on it (R42, R78), stuck and ended states (R111, R116), what a whole list of
descriptors puts on the line (R43), and executions with the launch premises and the agents' duties (R112, R117,
R118). -/

namespace Sys2Proof.Machine

/-! ### Launch premises (R118) -/

/-- `reset_first` and `config_ok`, and neither reset nor abort asserted at this step's input levels. -/
def State.Live (s : State) : Prop :=
  s.cfg.ok = true ∧ s.resetSeen = true ∧ s.env.pins.rst = false ∧ s.env.pins.abort = false

/-- The promptest environment: from now on both sources offer what they have at once, the sink takes every byte at
once, and nothing else happens.  It meets `sink_fair`, `no_abort`, `no_reset_after_first` and, while the source's bytes
last, `payload_fair`; the premises themselves, which no promptness enters, are those of `LaunchPremises`. -/
def Env.Prompt (e : Env) : Prop := e.pins = .prompt ∧ e.script = []

/-- The block is between frames (R118's clean entry, but for `err`, which survives between frames). -/
def State.Clean (s : State) : Prop := s.phase = .idle ∧ s.outFull = false ∧ s.escPend = false

/-- The constants frame a byte stream: the flag and the escape byte differ and are escaped, and no escaped form is the
flag (R59, R81).  Those of R9 do. -/
def FramingConstants (k : Constants) : Prop :=
  isReserved k k.flag = true ∧ isReserved k k.esc = true ∧ k.esc ≠ k.flag ∧
    ∀ u : Byte, isReserved k u = true → escaped k u ≠ k.flag

/-! ### The history (R41) -/

/-- The payload bytes a stretch of history read, in order. -/
def paysOf : List Event → List Byte
  | [] => []
  | .pay b :: es => b :: paysOf es
  | .accept _ :: es => paysOf es
  | .refused _ :: es => paysOf es
  | .out _ _ :: es => paysOf es
  | .done :: es => paysOf es
  | .aborted :: es => paysOf es
  | .reset :: es => paysOf es

/-- The bytes the sink took in a stretch of history, each with its `out_eof` marker, in order. -/
def outsOf : List Event → List (Byte × Bool)
  | [] => []
  | .out b l :: es => (b, l) :: outsOf es
  | .accept _ :: es => outsOf es
  | .refused _ :: es => outsOf es
  | .pay _ :: es => outsOf es
  | .done :: es => outsOf es
  | .aborted :: es => outsOf es
  | .reset :: es => outsOf es

/-- The bytes a stretch of history put on the line. -/
def lineOf (es : List Event) : List Byte := (outsOf es).map Prod.fst

/-- An event inside a frame, before its terminating flag. -/
def Event.inFrame : Event → Bool
  | .pay _ => true
  | .out _ l => !l
  | .accept _ => false
  | .refused _ => false
  | .done => false
  | .aborted => false
  | .reset => false

/-- An event of a frame, its terminating flag included. -/
def Event.onWire : Event → Bool
  | .pay _ => true
  | .out _ _ => true
  | .accept _ => false
  | .refused _ => false
  | .done => false
  | .aborted => false
  | .reset => false

/-! ### The invariant -/

/-- The invariant of R32, with the two facts it needs to carry itself from step to step: the latch holds a value
while a frame is in progress, and no payload byte has been read before the control byte. -/
structure State.Inv (s : State) : Prop where
  idle_empty : s.phase = .idle → s.outFull = false ∧ s.escPend = false
  drain_flag : s.phase = .drain → s.outFull = true ∧ s.outLast = true ∧ s.outByte = s.cfg.k.flag
  last_drain : s.outLast = true → s.outFull = true → s.phase = .drain
  pend_escape : s.escPend = true →
    (∃ u, isReserved s.cfg.k u = true ∧ s.escByte = escaped s.cfg.k u) ∧ s.phase ≠ .idle ∧ s.phase ≠ .drain
  payload_data : s.phase = .payload → ∃ k, s.latch = some k ∧ k.kind = .data ∧ s.idx.toNat < k.len.toNat
  body_kind : s.phase = .version ∨ s.phase = .code → ∃ k, s.latch = some k ∧ (k.kind = .rstack ∨ k.kind = .error)
  busy_latch : s.phase ≠ .idle → ∃ k, s.latch = some k ∧ (k.kind = .data → s.cfg.admitsLen k.len = true)
  ctrl_idx : s.phase = .ctrl → s.idx = 0

/-! ### The frame in progress -/

/-- How many payload bytes the frame in progress has still to read. -/
def State.payloadDue (s : State) : Nat :=
  match s.latch with
  | none => 0
  | some k =>
    match s.phase with
    | .ctrl => payloadNeed k
    | .payload => k.len.toNat - s.idx.toNat
    | .idle => 0
    | .version => 0
    | .code => 0
    | .crcHi => 0
    | .crcLo => 0
    | .flag => 0
    | .drain => 0

/-- Body bytes followed by the CRC of everything absorbed so far and them. -/
def closeFrame (k : Constants) (x : Word16) (body : List Byte) : List Byte := body ++ crcBytes (crcFrom k x body)

/-- The unstuffed bytes the frame in progress has still to produce, if the payload bytes it has still to read are
`q`. -/
def State.unstuffedToCome (s : State) (k : Latch) (q : List Byte) : List Byte :=
  match s.phase with
  | .idle => []
  | .ctrl =>
    match k.kind with
    | .data => closeFrame s.cfg.k s.crc (ctrlByte k :: randomizeFrom s.cfg.k s.lfsr q)
    | .ack => closeFrame s.cfg.k s.crc [ctrlByte k]
    | .nak => closeFrame s.cfg.k s.crc [ctrlByte k]
    | .rst => closeFrame s.cfg.k s.crc [ctrlByte k]
    | .rstack => closeFrame s.cfg.k s.crc [ctrlByte k, k.ver, k.code]
    | .error => closeFrame s.cfg.k s.crc [ctrlByte k, k.ver, k.code]
  | .payload => closeFrame s.cfg.k s.crc (randomizeFrom s.cfg.k s.lfsr q)
  | .version => closeFrame s.cfg.k s.crc [k.ver, k.code]
  | .code => closeFrame s.cfg.k s.crc [k.code]
  | .crcHi => closeFrame s.cfg.k s.crc []
  | .crcLo => [crcLow s.crc]
  | .flag => []
  | .drain => []

/-- The wire bytes the frame in progress has still to hand to the sink, if the payload bytes it has still to read
are `q`: the slot's byte, a pending second byte of an escape pair, the stuffed bytes to come, the flag. -/
def State.wireToCome (s : State) (k : Latch) (q : List Byte) : List Byte :=
  (if s.outFull then [s.outByte] else []) ++ (if s.escPend then [s.escByte] else []) ++
    stuff s.cfg.k (s.unstuffedToCome k q) ++
    (if s.phase = .idle ∨ s.phase = .drain then [] else [s.cfg.k.flag])

/-- While a frame is in progress, its descriptor stands in the history, only its own bytes follow, the payload bytes
read and those still due are as many as the command reads, and the bytes already taken together with those to come are
`Encode` of the payload bytes already read together with those to come (R42, R78). -/
def State.FrameTrace (s : State) : Prop :=
  s.phase ≠ .idle → ∃ (h : List Event) (d : Desc) (es : List Event) (i : Instr),
    s.history = h ++ .accept d :: es ∧ (∀ e ∈ es, e.inFrame = true) ∧
    decode d = .ok i ∧ s.latch = some (latchOf i) ∧
    (paysOf es).length + s.payloadDue = payloadNeed (latchOf i) ∧
    ∀ q : List Byte, q.length = s.payloadDue →
      encodeFrame s.cfg d (paysOf es ++ q) = .ok (lineOf es ++ s.wireToCome (latchOf i) q)

/-- What the whole history says of the line (R42, R78, R84, R104). -/
structure State.LineOk (s : State) : Prop where
  /-- The bytes after an accepted descriptor are a prefix of that descriptor's `Encode`, on the payload bytes read
  and as many more as the command would have read. -/
  cut : ∀ (h : List Event) (d : Desc) (es g : List Event),
    s.history = h ++ .accept d :: (es ++ g) → (∀ e ∈ es, e.onWire = true) →
    ∃ i q w, decode d = .ok i ∧ payloadFits i (paysOf es ++ q) ∧
      encodeFrame s.cfg d (paysOf es ++ q) = .ok w ∧ lineOf es <+: w
  /-- The bytes of a frame that is done are all of that descriptor's `Encode`, `eof` on the last and only there, and
  the payload bytes read are exactly those of the command. -/
  whole : ∀ (h : List Event) (d : Desc) (es g : List Event),
    s.history = h ++ .accept d :: (es ++ .done :: g) → (∀ e ∈ es, e.onWire = true) →
    ∃ i, decode d = .ok i ∧ payloadFits i (paysOf es) ∧ encodeFrame s.cfg d (paysOf es) = .ok (lineOf es) ∧
      outsOf es = (lineOf es).dropLast.map (fun b => (b, false)) ++ [(s.cfg.k.flag, true)]
  /-- A byte is taken by the sink only inside a frame. -/
  out_inside : ∀ (h : List Event) (b : Byte) (l : Bool) (g : List Event),
    s.history = h ++ .out b l :: g →
    ∃ (h' : List Event) (d : Desc) (es : List Event), h = h' ++ .accept d :: es ∧ ∀ e ∈ es, e.inFrame = true
  /-- A payload byte is read only inside a frame. -/
  pay_inside : ∀ (h : List Event) (b : Byte) (g : List Event),
    s.history = h ++ .pay b :: g →
    ∃ (h' : List Event) (d : Desc) (es : List Event), h = h' ++ .accept d :: es ∧ ∀ e ∈ es, e.inFrame = true

/-! ### The transitions of `phase` -/

/-- The block would accept the descriptor rather than refuse it (R60, R95). -/
def descAccepted (c : Config) (d : Desc) : Bool :=
  match decode d with
  | .error .illegalKind => false
  | .ok i => i.wellFormed c

/-- What follows a phase whose unstuffed byte ADVANCE has just produced (R74). -/
def State.advancedPhase (u : State) (k : Latch) : Phase :=
  match u.phase with
  | .idle => .idle
  | .ctrl =>
    match k.kind with
    | .data => if 0 < k.len.toNat then .payload else .crcHi
    | .ack => .crcHi
    | .nak => .crcHi
    | .rst => .crcHi
    | .rstack => .version
    | .error => .version
  | .payload => if u.idx.toNat + 1 = k.len.toNat then .crcHi else .payload
  | .version => .code
  | .code => .crcHi
  | .crcHi => .crcLo
  | .crcLo => .flag
  | .flag => .drain
  | .drain => .drain

/-- The table of R74: `phase` after the step taken at the input levels of `u`, where `k` is the latch's value. -/
def State.tablePhase (u : State) (k : Latch) : Phase :=
  if u.env.pins.rst then .idle
  else if u.env.pins.abort then .idle
  else if u.phase = .idle then
    match u.env.cmds with
    | [] => .idle
    | d :: _ => if u.env.pins.cmdValid && descAccepted u.cfg d then .ctrl else .idle
  else if u.outFull then
    if u.env.pins.outReady = true ∧ u.phase = .drain then .idle else u.phase
  else if u.escPend then u.phase
  else if u.phase = .payload ∧ u.plValid = false then u.phase
  else u.advancedPhase k

/-! ### Waiting and ending -/

/-- A frame is in progress and no step is enabled at these input levels (R111). -/
def State.Stuck (s : State) : Prop :=
  s.phase ≠ .idle ∧ s.env.pins.rst = false ∧ s.env.pins.abort = false ∧
    s.emitEnabled = false ∧ s.advanceEnabled = false

/-- The run has ended (R116): every offered descriptor has been taken, the block is idle, and the command source
offers no further one.  DESIGN CHOICE (assumption 25): a descriptor offered and withdrawn untaken, as R117 allows, no
longer counts as offered; the spec does not say whether it does. -/
def State.Ended (s : State) : Prop :=
  s.env.cmds = [] ∧ s.phase = .idle ∧ ∀ m ∈ s.env.script, m.cmds = none ∨ m.cmds = some []

/-! ### A list of descriptors -/

/-- The payload bytes a descriptor makes the block read: those of an accepted command, none for a refused one
(R36, R93). -/
def descNeed (c : Config) (d : Desc) : Nat :=
  match decode d with
  | .error .illegalKind => 0
  | .ok i => match acceptRefusal c i with
    | some _ => 0
    | none => payloadNeed (latchOf i)

/-- The payload bytes a list of descriptors makes the block read: what `payload_aligned` asks the payload source to
offer (R110, R117, R118). -/
def programNeed (c : Config) : List Desc → Nat
  | [] => 0
  | d :: ds => descNeed c d + programNeed c ds

/-- What a list of descriptors puts on the line, reading its payload bytes in order (R43, R44): each accepted
command's frame, nothing for a refused one. -/
def programLine (c : Config) : List Desc → List Byte → List Byte
  | [], _ => []
  | d :: ds, p =>
    match encodeFrame c d (p.take (descNeed c d)) with
    | .ok w => w ++ programLine c ds (p.drop (descNeed c d))
    | .error _ => programLine c ds p

/-- How many steps that takes when nothing waits (R112): one ACCEPT, and one ADVANCE and one EMIT for each wire
byte. -/
def programSteps (c : Config) : List Desc → List Byte → Nat
  | [], _ => 0
  | d :: ds, p =>
    match encodeFrame c d (p.take (descNeed c d)) with
    | .ok w => 1 + 2 * w.length + programSteps c ds (p.drop (descNeed c d))
    | .error _ => 1 + programSteps c ds p

/-! ### Executions, and the duties of the environment (R109, R110, R112, R117, R118)

In these definitions `(x n).drive` is the state that step `n` sees, its input ports driven for that step. -/

/-- A state whose environment has other moves to make. -/
def State.withScript (s : State) (ms : List Move) : State := { s with env := { s.env with script := ms } }

/-- An execution: each state is what the step before answers, but that before every step the environment may decide
anew what it does next.  So `x` ranges over all behaviours of the agents (R13), endless ones too. -/
def Execution (x : Nat → State) : Prop :=
  ∀ n, ∃ t, step (x n) = .next t ∧ x (n + 1) = t.withScript (x (n + 1)).env.script

/-- An ACCEPT that did not refuse. -/
def Event.isAccept : Event → Bool
  | .accept _ => true
  | .refused _ => false
  | .pay _ => false
  | .out _ _ => false
  | .done => false
  | .aborted => false
  | .reset => false

/-- How many frames a history has begun: the number, from 1, of the one it began last. -/
def framesBegun (es : List Event) : Nat := es.countP Event.isAccept

/-- What an event does to the count of payload bytes read for the frame begun last. -/
def Event.countRead (n : Nat) : Event → Nat
  | .accept _ => 0
  | .pay _ => n + 1
  | .refused _ => n
  | .out _ _ => n
  | .done => n
  | .aborted => n
  | .reset => n

/-- How many payload bytes a history has read for the frame it began last. -/
def bytesRead (es : List Event) : Nat := es.foldl Event.countRead 0

/-- `reset_first`: the first step is a reset step (R107, R118). -/
def ResetFirst (x : Nat → State) : Prop := (x 0).drive.env.pins.rst = true

/-- `config_ok`: the parameters meet their bounds (R108, R118). -/
def ConfigOk (x : Nat → State) : Prop := (x 0).cfg.ok = true

/-- `no_reset_after_first` (R118). -/
def NoResetAfterFirst (x : Nat → State) : Prop := ∀ n, (x (n + 1)).drive.env.pins.rst = false

/-- `no_abort` (R118). -/
def NoAbort (x : Nat → State) : Prop := ∀ n, (x n).drive.env.pins.abort = false

/-- `sink_fair`: weak fairness of the sink (R112): a byte is not offered for ever without the sink taking it. -/
def SinkFair (x : Nat → State) : Prop :=
  ∀ n, ∃ m, n ≤ m ∧ ((x m).drive.outValid = false ∨ (x m).drive.env.pins.outReady = true)

/-- `payload_fair`: weak fairness of the payload source (R112): a byte is not needed for ever without the source
offering one. -/
def PayloadFair (x : Nat → State) : Prop :=
  ∀ n, ∃ m, n ≤ m ∧ ((x m).drive.plReady = false ∨ (x m).drive.plValid = true)

/-- The command source holds an offered descriptor unchanged while it offers it and it is not taken (R109).  It may
withdraw the offer (R117). -/
def CommandsStable (x : Nat → State) : Prop :=
  ∀ n, (x n).drive.cmdValid = true → (x n).drive.acceptEnabled = false → (x (n + 1)).drive.cmdValid = true →
    (x (n + 1)).drive.env.cmds.head? = (x n).drive.env.cmds.head?

/-- The payload channel transfers in the step (R36, R100). -/
def State.payloadTaken (s : State) : Bool :=
  s.plReady && s.plValid && !s.env.pins.rst && !s.env.pins.abort

/-- The payload source holds an offered byte unchanged while it offers it and it is not taken (R109). -/
def PayloadStable (x : Nat → State) : Prop :=
  ∀ n, (x n).drive.plValid = true → (x n).drive.payloadTaken = false → (x (n + 1)).drive.plValid = true →
    (x (n + 1)).drive.env.payload.head? = (x n).drive.env.payload.head?

/-- `payload_aligned` (R110, R117), from the first reset step on, where `want i` is the payload the source means for the
`i`-th accepted command.  In an execution it makes every offer of a payload byte a stable one (R109). -/
structure PayloadAligned (x : Nat → State) (want : Nat → List Byte) : Prop where
  /-- Exactly `LEN` bytes are meant for a DATA command, none for any other. -/
  length_fits : ∀ n k, (x (n + 1)).phase ≠ .idle → (x (n + 1)).latch = some k →
    (want (framesBegun (x (n + 1)).history)).length = payloadNeed k
  /-- Nothing is offered outside a frame: nothing for a refused command, and the unread bytes of a frame that an abort
  or a reset has cut short are withdrawn. -/
  none_outside : ∀ n, (x (n + 1)).drive.plValid = true → (x (n + 1)).phase ≠ .idle
  /-- What is offered inside a frame is the next of the frame's own bytes; after the last of them, nothing. -/
  in_order : ∀ n, (x (n + 1)).drive.plValid = true →
    (x (n + 1)).drive.env.payload.head? =
      (want (framesBegun (x (n + 1)).history))[bytesRead (x (n + 1)).history]?

/-- The duties of the four agents, the column "must do" of R117.  Their liberties are all that `Execution` leaves
open.  DESIGN CHOICE (assumption 27): "exactly `LEN` bytes" bounds what the payload source offers and does not ask that
all of it be offered in the end, since R117 lists "offer nothing" as a liberty and does not say which of the two prevails;
that every needed byte comes in the end is `PayloadFair`, a premise of its own (R112, R118). -/
structure EnvironmentDuties (x : Nat → State) (want : Nat → List Byte) : Prop where
  /-- the drivers of reset and abort -/
  reset_first : ResetFirst x
  /-- the command source -/
  commands_stable : CommandsStable x
  /-- the payload source -/
  payload_stable : PayloadStable x
  payload_aligned : PayloadAligned x want
  /-- the sink, "for any claim that a frame completes" -/
  sink_fair : SinkFair x

/-- The launch premises of R118, all of them: those of a claim that a frame completes. -/
structure LaunchPremises (x : Nat → State) (want : Nat → List Byte) : Prop where
  reset_first : ResetFirst x
  config_ok : ConfigOk x
  payload_aligned : PayloadAligned x want
  sink_fair : SinkFair x
  payload_fair : PayloadFair x
  no_abort : NoAbort x
  no_reset_after_first : NoResetAfterFirst x

/-- The kinds of step (R71, R72, R75, R97, R105); `wait` is a step that does nothing. -/
inductive StepKind where
  | reset | abort | accept | emit | advance | wait
  deriving DecidableEq, Repr

/-- Which step the block takes at these input levels (R100). -/
def State.stepKind (s : State) : StepKind :=
  if s.env.pins.rst then .reset
  else if s.env.pins.abort then (if s.phase = .idle then .wait else .abort)
  else if s.acceptEnabled then .accept
  else if s.emitEnabled then .emit
  else if s.advanceEnabled then .advance
  else .wait

/-- The kinds of the `len` steps from step `start` on, in order, less those that wait. -/
def stepsTaken (x : Nat → State) (start len : Nat) : List StepKind :=
  ((List.range' start len).map (fun i => (x i).drive.stepKind)).filter (fun k => k ≠ .wait)

/-! ### Fields a kind uses -/

/-- Two commands of one kind that agree on the fields the kind uses (R50). -/
def SameUsedFields : Instr → Instr → Prop
  | .data f, .data g => f.frm = g.frm ∧ f.ack = g.ack ∧ f.retx = g.retx ∧ f.len = g.len
  | .ack f, .ack g => f.ack = g.ack ∧ f.nrdy = g.nrdy
  | .nak f, .nak g => f.ack = g.ack ∧ f.nrdy = g.nrdy
  | .rst _, .rst _ => True
  | .rstack f, .rstack g => f.ver = g.ver ∧ f.code = g.code
  | .error f, .error g => f.ver = g.ver ∧ f.code = g.code
  | _, _ => False

end Sys2Proof.Machine
end

