-- ==== Sys2Proof/Certificates/Slice0/Obligations.lean ====
section
/-! DEFINITION. The statements about the model, for the provers.  In a statement about a step, `s.drive` is the
state as the step sees it: its input ports driven by the environment's move (assumption 3).  The block has no memory
(R34), so no statement speaks of one; a statement that gives the next state as a record update of the state before
says with it that everything else is unchanged. -/

open Sys2Proof Sys2Proof.Machine

/-! ### Descriptors (R46 to R50, R60) -/

/-- Decoding the descriptor of any command, with every field at any value, gives the command back (R47, R48). -/
def Obligations.EncodedCommandDecodesToItself : Prop :=
  ∀ i : Instr, decode (encode i) = .ok i

/-- A descriptor that decodes is the encoding of what it decodes to: no bit of it is dropped (R47, R48). -/
def Obligations.DecodedCommandEncodesToItsDescriptor : Prop :=
  ∀ (d : Desc) (i : Instr), decode d = .ok i → encode i = d

/-- R49: the operand fields are those slices of the descriptor, as unsigned values. -/
def Obligations.OperandFieldsStandAtTheirBits : Prop :=
  ∀ (d : Desc) (i : Instr), decode d = .ok i →
    (latchOf i).kind.toCode = d.extractLsb' 0 3 ∧
    (latchOf i).frm = d.extractLsb' 3 3 ∧
    (latchOf i).ack = d.extractLsb' 6 3 ∧
    (latchOf i).retx = d.getLsbD 9 ∧
    (latchOf i).nrdy = d.getLsbD 10 ∧
    (latchOf i).len = d.extractLsb' 16 8 ∧
    (latchOf i).ver = d.extractLsb' 24 8 ∧
    (latchOf i).code = d.extractLsb' 32 8

/-- R48: the eight values of `KIND`; 6 and 7 are illegal. -/
def Obligations.KindCodesNameTheSixFrames : Prop :=
  ∀ d : Desc,
    (d.extractLsb' 0 3 = 0 → ∃ f, decode d = .ok (.data f)) ∧
    (d.extractLsb' 0 3 = 1 → ∃ f, decode d = .ok (.ack f)) ∧
    (d.extractLsb' 0 3 = 2 → ∃ f, decode d = .ok (.nak f)) ∧
    (d.extractLsb' 0 3 = 3 → ∃ f, decode d = .ok (.rst f)) ∧
    (d.extractLsb' 0 3 = 4 → ∃ f, decode d = .ok (.rstack f)) ∧
    (d.extractLsb' 0 3 = 5 → ∃ f, decode d = .ok (.error f)) ∧
    (d.extractLsb' 0 3 = 6 → decode d = .error .illegalKind) ∧
    (d.extractLsb' 0 3 = 7 → decode d = .error .illegalKind)

/-- Descriptors written out from R47: `DATA frm=7 ack=6 retx` with three payload bytes, `NAK ack=6`, `RST`, `ERROR
ver=02 code=51`, and `KIND` 7 (spec/95_test_vectors.md V-D4, V-N7, V-R1, V-E1, V-F6). -/
def Obligations.DescriptorsOfTheSpecDecode : Prop :=
  (∃ f, decode 0x00000303B8 = .ok (.data f) ∧ f.frm = 7 ∧ f.ack = 6 ∧ f.retx = true ∧ f.len = 3) ∧
  (∃ f, decode 0x0000000182 = .ok (.nak f) ∧ f.ack = 6 ∧ f.nrdy = false) ∧
  (∃ f, decode 0x0000000003 = .ok (.rst f)) ∧
  (∃ f, decode 0x5102000005 = .ok (.error f) ∧ f.ver = 0x02 ∧ f.code = 0x51) ∧
  decode 0x0000C80007 = .error .illegalKind

/-- A step runs the decoded command: where the command channel transfers a descriptor that decodes to `i`, the step
is `exec i` once the descriptor is off the channel (R35, R71). -/
def Obligations.StepRunsTheDecodedCommand : Prop :=
  ∀ (s : State) (d : Desc) (ds : List Desc) (i : Instr),
    s.drive.Live → s.drive.phase = .idle → s.drive.env.pins.cmdValid = true → s.drive.env.cmds = d :: ds →
    decode d = .ok i →
    step s = exec i { s.drive with env := { s.drive.env with cmds := ds } }

/-! ### ACCEPT, command by command (R71, R85 to R91) -/

/-- A DATA command whose length lies in the configuration's bounds is accepted: the latch holds its fields, the
datapath registers are initialised, the frame begins, and nothing else changes (R71, R85). -/
def Obligations.DataCommandStartsItsFrame : Prop :=
  ∀ (f : Fields) (s : State), s.phase = .idle → s.env.pins.rst = false → s.env.pins.abort = false →
    s.cfg.minDataPayload ≤ f.len.toNat → f.len.toNat ≤ s.cfg.maxDataPayload →
    exec (.data f) s = .next { s with
      latch := some { kind := .data, frm := f.frm, ack := f.ack, retx := f.retx, nrdy := f.nrdy,
                      len := f.len, ver := f.ver, code := f.code }
      idx := 0, crc := s.cfg.k.crcInit, lfsr := s.cfg.k.lfsrSeed, err := .noError, phase := .ctrl
      history := s.history ++ [.accept (encode (.data f))] }

/-- A DATA command too long or too short is refused with its code; only `err` and the history change (R85, R93,
R95). This says where a DATA command is turned away, not where it completes. -/
def Obligations.DataCommandRefusedByItsLength : Prop :=
  ∀ (f : Fields) (s : State), s.phase = .idle → s.env.pins.rst = false → s.env.pins.abort = false →
    s.cfg.minDataPayload ≤ s.cfg.maxDataPayload →
    (s.cfg.maxDataPayload < f.len.toNat →
      exec (.data f) s = .next { s with err := .oversize, history := s.history ++ [.refused .oversize] }) ∧
    (f.len.toNat < s.cfg.minDataPayload →
      exec (.data f) s = .next { s with err := .undersize, history := s.history ++ [.refused .undersize] })

/-- Every ACK and every NAK command is accepted, whatever its fields hold (R71, R87, R88). -/
def Obligations.AckAndNakCommandsStartTheirFrames : Prop :=
  ∀ (f : Fields) (s : State), s.phase = .idle → s.env.pins.rst = false → s.env.pins.abort = false →
    exec (.ack f) s = .next { s with
      latch := some { kind := .ack, frm := f.frm, ack := f.ack, retx := f.retx, nrdy := f.nrdy,
                      len := f.len, ver := f.ver, code := f.code }
      idx := 0, crc := s.cfg.k.crcInit, lfsr := s.cfg.k.lfsrSeed, err := .noError, phase := .ctrl
      history := s.history ++ [.accept (encode (.ack f))] } ∧
    exec (.nak f) s = .next { s with
      latch := some { kind := .nak, frm := f.frm, ack := f.ack, retx := f.retx, nrdy := f.nrdy,
                      len := f.len, ver := f.ver, code := f.code }
      idx := 0, crc := s.cfg.k.crcInit, lfsr := s.cfg.k.lfsrSeed, err := .noError, phase := .ctrl
      history := s.history ++ [.accept (encode (.nak f))] }

/-- Every RST, RSTACK and ERROR command is accepted, whatever its fields hold (R71, R89 to R91). -/
def Obligations.ResetAndErrorCommandsStartTheirFrames : Prop :=
  ∀ (f : Fields) (s : State), s.phase = .idle → s.env.pins.rst = false → s.env.pins.abort = false →
    exec (.rst f) s = .next { s with
      latch := some { kind := .rst, frm := f.frm, ack := f.ack, retx := f.retx, nrdy := f.nrdy,
                      len := f.len, ver := f.ver, code := f.code }
      idx := 0, crc := s.cfg.k.crcInit, lfsr := s.cfg.k.lfsrSeed, err := .noError, phase := .ctrl
      history := s.history ++ [.accept (encode (.rst f))] } ∧
    exec (.rstack f) s = .next { s with
      latch := some { kind := .rstack, frm := f.frm, ack := f.ack, retx := f.retx, nrdy := f.nrdy,
                      len := f.len, ver := f.ver, code := f.code }
      idx := 0, crc := s.cfg.k.crcInit, lfsr := s.cfg.k.lfsrSeed, err := .noError, phase := .ctrl
      history := s.history ++ [.accept (encode (.rstack f))] } ∧
    exec (.error f) s = .next { s with
      latch := some { kind := .error, frm := f.frm, ack := f.ack, retx := f.retx, nrdy := f.nrdy,
                      len := f.len, ver := f.ver, code := f.code }
      idx := 0, crc := s.cfg.k.crcInit, lfsr := s.cfg.k.lfsrSeed, err := .noError, phase := .ctrl
      history := s.history ++ [.accept (encode (.error f))] }

/-- A command offered where the channel cannot transfer (busy, reset or abort asserted) has no effect (R28, R35); that
`exec` is total in this way is the model's choice (assumption 13). -/
def Obligations.CommandNotTransferredHasNoEffect : Prop :=
  ∀ (i : Instr) (s : State), s.phase ≠ .idle ∨ s.env.pins.rst = true ∨ s.env.pins.abort = true →
    exec i s = .next s

/-- R71: ACCEPT, with its checks in the order written and its effect in terms of the descriptor's own bits. -/
def Obligations.AcceptFollowsItsRule : Prop :=
  ∀ (s : State) (d : Desc) (ds : List Desc),
    s.drive.Live → s.drive.phase = .idle → s.drive.env.pins.cmdValid = true → s.drive.env.cmds = d :: ds →
    let taken : State := { s.drive with env := { s.drive.env with cmds := ds } }
    let refused : ErrCode → State := fun c =>
      { taken with err := c, history := taken.history ++ [.refused c] }
    step s = .next (
      if d.extractLsb' 0 3 = 6 ∨ d.extractLsb' 0 3 = 7 then refused .illegalKind
      else if d.extractLsb' 0 3 = 0 ∧ s.cfg.maxDataPayload < (d.extractLsb' 16 8).toNat then refused .oversize
      else if d.extractLsb' 0 3 = 0 ∧ (d.extractLsb' 16 8).toNat < s.cfg.minDataPayload then refused .undersize
      else { taken with
        latch := (FrameKind.ofCode (d.extractLsb' 0 3)).map (fun k =>
          { kind := k, frm := d.extractLsb' 3 3, ack := d.extractLsb' 6 3, retx := d.getLsbD 9,
            nrdy := d.getLsbD 10, len := d.extractLsb' 16 8, ver := d.extractLsb' 24 8,
            code := d.extractLsb' 32 8 })
        idx := 0, crc := s.cfg.k.crcInit, lfsr := s.cfg.k.lfsrSeed, err := .noError, phase := .ctrl
        history := taken.history ++ [.accept d] })

/-- R93: a refusal takes the descriptor, writes `err`, fires `evt_err`, and leaves the rest of the block unchanged
and ready for the next descriptor. -/
def Obligations.RefusalIsPrecise : Prop :=
  ∀ (s : State) (d : Desc) (ds : List Desc) (c : ErrCode),
    s.drive.Live → s.drive.phase = .idle → s.drive.env.pins.cmdValid = true → s.drive.env.cmds = d :: ds →
    encodeFrame s.cfg d [] = .error c →
    ∃ t, step s = .next t ∧
      t = { s.drive with
            err := c, history := s.history ++ [.refused c], env := { s.drive.env with cmds := ds } } ∧
      evtErr s.drive t = true ∧ evtDone s.drive t = false ∧ t.cmdReady = true ∧
      t.env.payload = s.drive.env.payload ∧ t.outValid = s.drive.outValid

/-- A descriptor is refused by ACCEPT with a code exactly when `Encode` refuses it with that code, whatever the
payload (R77, R78). -/
def Obligations.RefusalAgreesWithEncode : Prop :=
  ∀ (s t : State) (d : Desc) (ds : List Desc) (c : ErrCode) (p : List Byte),
    s.drive.Live → s.drive.phase = .idle → s.drive.env.pins.cmdValid = true → s.drive.env.cmds = d :: ds →
    step s = .next t →
    (t.history = s.history ++ [.refused c] ↔ encodeFrame s.cfg d p = .error c)

/-! ### ADVANCE, EMIT, abort, reset (R72 to R76, R97, R98, R105) -/

/-- R72, R73: ADVANCE, phase by phase, and `put_stuffed`; it writes no flag and, in a state that meets the
invariant, never fails to answer a next state. -/
def Obligations.AdvanceFollowsItsRule : Prop :=
  ∀ s : State, s.drive.Live → s.drive.outFull = false →
    let u : State := s.drive
    let put : State → Byte → State := fun t b =>
      if b ∈ t.cfg.k.reserved then
        { t with outFull := true, outByte := t.cfg.k.esc, outLast := false,
                 escPend := true, escByte := b ^^^ t.cfg.k.escMask }
      else { t with outFull := true, outByte := b, outLast := false }
    (u.escPend = true → u.phase ≠ .idle → u.phase ≠ .drain →
      step s = .next { u with outFull := true, outByte := u.escByte, outLast := false, escPend := false }) ∧
    (u.escPend = false → ∀ k : Latch,
      (u.phase = .ctrl → u.latch = some k →
        step s = .next { put u (ctrlByte k) with
          crc := crcStep u.cfg.k u.crc (ctrlByte k), phase := succCtrl k }) ∧
      (∀ (b : Byte) (p : List Byte), u.phase = .payload → u.latch = some k →
        u.env.pins.plValid = true → u.env.payload = b :: p →
        step s = .next { put u (b ^^^ u.lfsr) with
          crc := crcStep u.cfg.k u.crc (b ^^^ u.lfsr), lfsr := lfsrStep u.cfg.k u.lfsr, idx := u.idx + 1
          env := { u.env with payload := p }, history := u.history ++ [.pay b]
          phase := if u.idx.toNat + 1 = k.len.toNat then .crcHi else .payload }) ∧
      (u.phase = .version → u.latch = some k →
        step s = .next { put u k.ver with crc := crcStep u.cfg.k u.crc k.ver, phase := .code }) ∧
      (u.phase = .code → u.latch = some k →
        step s = .next { put u k.code with crc := crcStep u.cfg.k u.crc k.code, phase := .crcHi }) ∧
      (u.phase = .crcHi → step s = .next { put u (u.crc.extractLsb' 8 8) with phase := .crcLo }) ∧
      (u.phase = .crcLo → step s = .next { put u (u.crc.extractLsb' 0 8) with phase := .flag }) ∧
      (u.phase = .flag → step s = .next { u with
        outFull := true, outByte := u.cfg.k.flag, outLast := true, phase := .drain })) ∧
    (u.Inv → u.advanceEnabled = true → ∃ t, step s = .next t ∧ t.err = u.err)

/-- R75: EMIT hands the slot's byte to the sink; the frame's last byte ends the frame and fires `evt_done`. -/
def Obligations.EmitFollowsItsRule : Prop :=
  ∀ s : State, s.drive.Live → s.drive.Inv → s.drive.outFull = true → s.drive.env.pins.outReady = true →
    (s.drive.outLast = false →
      step s = .next { s.drive with
        outFull := false, history := s.history ++ [.out s.outByte false] }) ∧
    (s.drive.outLast = true → ∃ t, step s = .next t ∧
      t = { s.drive with
            outFull := false, phase := .idle, history := s.history ++ [.out s.outByte true, .done] } ∧
      evtDone s.drive t = true)

/-- R76: where the invariant holds, at most one of ACCEPT, ADVANCE and EMIT is enabled. -/
def Obligations.AtMostOneStepIsEnabled : Prop :=
  ∀ u : State, u.Inv →
    ¬(u.acceptEnabled = true ∧ u.advanceEnabled = true) ∧
    ¬(u.acceptEnabled = true ∧ u.emitEnabled = true) ∧
    ¬(u.advanceEnabled = true ∧ u.emitEnabled = true)

/-- R97, R98: abort discards the frame in progress, withdrawing the offered byte, and does nothing when idle. -/
def Obligations.AbortDiscardsTheFrame : Prop :=
  ∀ s : State, s.cfg.ok = true → s.resetSeen = true →
    s.drive.env.pins.rst = false → s.drive.env.pins.abort = true →
    (s.phase ≠ .idle → ∃ t, step s = .next t ∧
      t = { s.drive with
            phase := .idle, outFull := false, escPend := false, err := .aborted
            history := s.history ++ [.aborted] } ∧
      evtErr s.drive t = true) ∧
    (s.phase = .idle → step s = .next s.drive)

/-- R105: the reset step, whatever else is asserted and whatever the block holds. Neither strobe fires. -/
def Obligations.ResetFollowsItsRule : Prop :=
  ∀ s : State, s.cfg.ok = true → s.drive.env.pins.rst = true →
    ∃ t, step s = .next t ∧
      t = { cfg := s.cfg, resetSeen := true, phase := .idle, idx := 0, latch := none
            crc := s.cfg.k.crcInit, lfsr := s.cfg.k.lfsrSeed, escPend := false, escByte := 0x00
            outFull := false, outByte := 0x00, outLast := false, err := .noError
            history := s.history ++ [.reset], env := s.drive.env } ∧
      evtDone s.drive t = false ∧ evtErr s.drive t = false

/-- R33: the reset values, and what the ports then show. -/
def Obligations.ResetStateHoldsItsValues : Prop :=
  State.reset.phase = .idle ∧ State.reset.idx = 0 ∧ State.reset.crc = State.reset.cfg.k.crcInit ∧
  State.reset.lfsr = State.reset.cfg.k.lfsrSeed ∧
  State.reset.escPend = false ∧ State.reset.escByte = 0x00 ∧ State.reset.outFull = false ∧
  State.reset.outByte = 0x00 ∧ State.reset.outLast = false ∧ State.reset.err = .noError ∧
  State.reset.latch = none ∧
  State.reset.status = 0x00 ∧ State.reset.cmdReady = true ∧ State.reset.plReady = false ∧
  State.reset.outValid = false

/-- R107: before the first reset step a step without reset is refused; a reset step leaves the block waiting, in a
state that does not depend on what any element held before. -/
def Obligations.RunBeginsWithReset : Prop :=
  (∀ s : State, s.cfg.ok = true → s.resetSeen = false → s.drive.env.pins.rst = false →
    step s = .refused .noReset) ∧
  (∀ s s' : State, s.cfg.ok = true → s.drive.env.pins.rst = true →
    s'.cfg = s.cfg → s'.history = s.history → s'.env = s.env →
    ∃ t, step s = .next t ∧ step s' = .next t ∧ t.phase = .idle ∧ t.cmdReady = true ∧ t.resetSeen = true)

/-- A configuration is refused exactly when it breaks the bounds of R108 or R8's `1 ≤ P_MAX_DATA_PAYLOAD`; that
the two are taken together is the model's reading (assumption 2). -/
def Obligations.BadConfigurationIsRefused : Prop :=
  ∀ s : State, step s = .refused .badConfig ↔
    ¬(s.cfg.minDataPayload ≤ s.cfg.maxDataPayload ∧ 1 ≤ s.cfg.maxDataPayload ∧ s.cfg.maxDataPayload ≤ 255)

/-- R100: reset before abort before the one enabled step; a descriptor offered with reset or abort is not taken, and
an output byte offered with abort is withdrawn, not taken. The sub-clause for a step in which none is enabled, that it
is a next state which changes nothing, is the model's choice (assumption 10). -/
def Obligations.SimultaneousInputsHaveAPriority : Prop :=
  ∀ s : State, s.cfg.ok = true → s.resetSeen = true → s.drive.Inv →
    let u : State := s.drive
    (u.env.pins.rst = true → step s = .next u.resetStep) ∧
    (u.env.pins.rst = false → u.env.pins.abort = true → step s = .next u.abortStep) ∧
    (u.env.pins.rst = false → u.env.pins.abort = false →
      (u.acceptEnabled = true → step s = u.acceptStep) ∧
      (u.advanceEnabled = true → step s = u.advance) ∧
      (u.emitEnabled = true → step s = .next u.emit) ∧
      (u.acceptEnabled = false → u.advanceEnabled = false → u.emitEnabled = false → step s = .next u)) ∧
    (u.env.pins.rst = true ∨ u.env.pins.abort = true →
      ∃ t, step s = .next t ∧ t.env.cmds = u.env.cmds ∧ t.env.payload = u.env.payload ∧
        lineOf t.history = lineOf u.history ∧ t.outFull = false)

/-- R74: `phase` moves only as the table says, and a frame with no payload arises only if the configuration admits
it. -/
def Obligations.PhaseMovesOnlyByTheTable : Prop :=
  ∀ (s t : State) (k : Latch), s.drive.Inv → (s.phase = .idle ∨ s.latch = some k) → step s = .next t →
    t.phase = s.drive.tablePhase k ∧
    (s.phase ≠ .idle → k.kind = .data → k.len = 0 → s.cfg.minDataPayload = 0)

/-- In a state that meets the invariant no step faults, and a step is refused only before the first reset or for a bad
configuration: refusals and discarded frames are next states (R92). That a waiting step is a next state is the model's
choice (assumption 10); when a step is refused is the model's reading of R107 and R108 (assumptions 9 and 2). -/
def Obligations.StepsNeverFault : Prop :=
  ∀ s : State, s.drive.Inv →
    (∀ r : Fault, step s ≠ .fault r) ∧
    (s.cfg.ok = true → s.resetSeen = true → ∃ t, step s = .next t)

/-! ### Status and registers -/

/-- R25: the status word's fields, the values each takes, and its value after reset; `BUSY` is 1 exactly when
`phase` is not `IDLE` (R26). -/
def Obligations.StatusWordShowsBusyAndErr : Prop :=
  State.reset.status = 0x00 ∧
  ∀ s : State,
    s.status.extractLsb' 4 4 = 0 ∧
    s.status.extractLsb' 1 3 = s.err.toCode ∧ (s.status.extractLsb' 1 3).toNat ≤ 4 ∧
    (s.status.getLsbD 0 = true ↔ s.phase ≠ .idle)

/-- R96: what each step leaves in `err`; only ACCEPT, an abort that discards a frame, and reset write it. -/
def Obligations.ErrIsWrittenOnlyByAcceptAbortAndReset : Prop :=
  ∀ s t : State, s.drive.Inv → step s = .next t →
    t.err =
      if s.drive.env.pins.rst = true then .noError
      else if s.drive.env.pins.abort = true then (if s.phase = .idle then s.err else .aborted)
      else if s.drive.acceptEnabled = true then
        match s.drive.env.cmds with
        | [] => s.err
        | d :: _ => match encodeFrame s.cfg d [] with
          | .ok _ => .noError
          | .error c => c
      else s.err

/-- Frame of every step at input levels without reset: each register changes only in the steps that write it (R16 to
R24; abort and reset also clear what R97 and R105 say, assumption 6). -/
def Obligations.RegistersChangeOnlyInTheirSteps : Prop :=
  ∀ s t : State, s.drive.Inv → s.drive.env.pins.rst = false → step s = .next t →
    let u : State := s.drive
    let accepts : Prop := u.env.pins.abort = false ∧ u.acceptEnabled = true
    let advances : Prop := u.env.pins.abort = false ∧ u.advanceEnabled = true
    let emits : Prop := u.env.pins.abort = false ∧ u.emitEnabled = true
    t.cfg = u.cfg ∧ t.resetSeen = u.resetSeen ∧
    (t.latch ≠ u.latch → accepts) ∧
    (t.idx ≠ u.idx → accepts ∨ (advances ∧ u.phase = .payload ∧ u.escPend = false)) ∧
    (t.lfsr ≠ u.lfsr → accepts ∨ (advances ∧ u.phase = .payload ∧ u.escPend = false)) ∧
    (t.crc ≠ u.crc → accepts ∨ (advances ∧ u.escPend = false ∧
      (u.phase = .ctrl ∨ u.phase = .payload ∨ u.phase = .version ∨ u.phase = .code))) ∧
    (t.escByte ≠ u.escByte → advances) ∧
    (t.outByte ≠ u.outByte → advances) ∧
    (t.outLast ≠ u.outLast → advances) ∧
    (t.escPend ≠ u.escPend → advances ∨ u.env.pins.abort = true) ∧
    (t.outFull ≠ u.outFull → advances ∨ emits ∨ u.env.pins.abort = true) ∧
    (t.env.cmds ≠ u.env.cmds → accepts) ∧
    (t.env.payload ≠ u.env.payload → advances ∧ u.phase = .payload ∧ u.escPend = false)

/-- While the slot is full its byte and marker are held until the sink takes them, just that byte and no other, or
until an abort or a reset (R24, R37). -/
def Obligations.OfferedByteIsHeldUntilTaken : Prop :=
  ∀ s t : State, s.drive.Inv → s.outFull = true → step s = .next t →
    (t.outFull = true ∧ t.outByte = s.outByte ∧ t.outLast = s.outLast ∧ t.history = s.history) ∨
    (s.drive.env.pins.outReady = true ∧ t.outFull = false ∧
      t.history = s.history ++ .out s.outByte s.outLast :: (if s.outLast then [.done] else [])) ∨
    (t.outFull = false ∧ lineOf t.history = lineOf s.history ∧
      (s.drive.env.pins.rst = true ∨ s.drive.env.pins.abort = true))

/-- A payload byte is read, whole, only in a step where `pl_ready` and `pl_valid` are both 1, and in every such step
without reset or abort (R29, R36). -/
def Obligations.PayloadIsReadOnlyAtItsHandshake : Prop :=
  ∀ s t : State, s.drive.Inv → step s = .next t →
    (s.drive.Live ∧ s.drive.plReady = true ∧ s.drive.plValid = true ∧
      ∃ b p, s.drive.env.payload = b :: p ∧ t.env.payload = p ∧ t.history = s.history ++ [.pay b]) ∨
    (¬(s.drive.Live ∧ s.drive.plReady = true ∧ s.drive.plValid = true) ∧
      t.env.payload = s.drive.env.payload ∧ paysOf t.history = paysOf s.history)

/-- The history only grows, at its end (R41). -/
def Obligations.HistoryOnlyGrows : Prop :=
  ∀ s t : State, step s = .next t → ∃ es, t.history = s.history ++ es ∧ es.length ≤ 2

/-- Command coherence (R45): while a frame is in progress, what stands on the command port in a step, whatever moves
the environment makes, has no effect on that step. -/
def Obligations.BusyBlockIgnoresTheCommandPort : Prop :=
  ∀ (s t : State) (ds : List Desc) (v : Bool), s.phase ≠ .idle → step s = .next t →
    step { s.drive with env := { s.drive.env with
      cmds := ds, pins := { s.drive.env.pins with cmdValid := v }, script := [] } } =
      .next { t with env := { t.env with cmds := ds, pins := { t.env.pins with cmdValid := v }, script := [] } }

/-! ### The invariant -/

/-- The state after reset meets the invariant of R32 and says nothing wrong of the line. -/
def Obligations.ResetMeetsTheInvariants : Prop :=
  State.reset.Inv ∧ State.reset.FrameTrace ∧ State.reset.LineOk

/-- Every step keeps the invariant of R32, from every state that meets it and whatever the environment does. -/
def Obligations.StepKeepsTheInvariant : Prop :=
  ∀ s t : State, s.Inv → step s = .next t → t.Inv

/-- R32: every state reached from a reset step, of any block and under any environment, satisfies it. -/
def Obligations.ReachableStatesMeetTheInvariant : Prop :=
  ∀ (s : State) (n : Nat) (t : State), Host.Core.run core n s.resetStep = .next t →
    (t.phase = .idle → t.outFull = false ∧ t.escPend = false) ∧
    (t.phase = .drain → t.outFull = true ∧ t.outLast = true ∧ t.outByte = t.cfg.k.flag) ∧
    (t.outLast = true → t.outFull = true → t.phase = .drain) ∧
    (t.escPend = true → (∃ u ∈ t.cfg.k.reserved, t.escByte = u ^^^ t.cfg.k.escMask) ∧
      t.phase ≠ .idle ∧ t.phase ≠ .drain) ∧
    (t.phase = .payload → ∃ k, t.latch = some k ∧ k.kind = .data ∧ t.idx.toNat < k.len.toNat) ∧
    (t.phase = .version ∨ t.phase = .code → ∃ k, t.latch = some k ∧ (k.kind = .rstack ∨ k.kind = .error)) ∧
    (t.phase ≠ .idle → ∃ k, t.latch = some k ∧
      (k.kind = .data → t.cfg.minDataPayload ≤ k.len.toNat ∧ k.len.toNat ≤ t.cfg.maxDataPayload))

/-- Every step keeps the trace of the frame in progress: the bytes taken and the bytes to come are `Encode` of the
payload bytes read and those to come (R42, R78), whatever the environment does. -/
def Obligations.StepKeepsTheFrameTrace : Prop :=
  ∀ s t : State, s.Inv → s.FrameTrace → step s = .next t → t.FrameTrace

/-- Every step keeps what the whole history says of the line (R42, R78, R84, R104): bytes are read and put on the
line only inside accepted descriptors' frames, each frame whole when done and otherwise cut short. -/
def Obligations.StepKeepsTheLine : Prop :=
  ∀ s t : State, s.Inv → s.FrameTrace → s.LineOk → step s = .next t → t.LineOk

/-- R42, R104: in every run of any block from its first reset step, under any environment, each frame that is done
has put on the line, in order, exactly the bytes of its `Encode`, with `eof` on the last and only there; one that an
abort or a reset has cut short, a prefix of them; and no byte has been read or put on the line outside a frame. -/
def Obligations.RunsPutOnlyAcceptedFramesOnTheLine : Prop :=
  ∀ (s : State) (n : Nat) (t : State), s.history = [] → Host.Core.run core n s.resetStep = .next t → t.LineOk

/-! ### CRC, randomizer, stuffing (R63 to R69) -/

/-- The check value (R64, with the constants of assumption 1), and the CRC of the empty sequence. -/
def Obligations.CrcCheckValue : Prop :=
  crc16 Constants.ashv2 [0x31, 0x32, 0x33, 0x34, 0x35, 0x36, 0x37, 0x38, 0x39] = 0x29B1 ∧
  ∀ k : Constants, crc16 k [] = k.crcInit

/-- The CRC step is GF(2)-linear in the register and the byte together, for every polynomial (R63, R83). -/
def Obligations.CrcStepIsLinear : Prop :=
  ∀ (k : Constants) (c c' : Word16) (b b' : Byte),
    crcStep k (c ^^^ c') (b ^^^ b') = crcStep k c b ^^^ crcStep k c' b'

/-- The CRC of a frame's bytes followed by its two CRC bytes, high byte first, is zero (R38, R63, R64). -/
def Obligations.CrcOverItsOwnBytesIsZero : Prop :=
  ∀ (k : Constants) (q : List Byte), crc16 k (q ++ crcBytes (crc16 k q)) = 0

/-- The first sixteen values of the randomizer sequence (R66, with the constants of assumption 1); it is never zero
and its period is 255. -/
def Obligations.RandomizerSequenceHasPeriod255 : Prop :=
  (List.range 16).map (rnd Constants.ashv2) =
    [0x42, 0x21, 0xA8, 0x54, 0x2A, 0x15, 0xB2, 0x59, 0x94, 0x4A, 0x25, 0xAA, 0x55, 0x92, 0x49, 0x9C] ∧
  (∀ n, rnd Constants.ashv2 n ≠ 0) ∧
  (∀ n, rnd Constants.ashv2 (n + 255) = rnd Constants.ashv2 n) ∧
  (∀ m, 0 < m → m < 255 → rnd Constants.ashv2 m ≠ rnd Constants.ashv2 0)

/-- The payload is XORed byte by byte with the sequence restarted from the seed, and randomizing twice gives
it back (R67). -/
def Obligations.RandomizationXorsTheSequence : Prop :=
  ∀ (k : Constants) (p : List Byte),
    (randomize k p).length = p.length ∧
    (∀ (i : Nat) (h : i < p.length), (randomize k p)[i]? = some (p[i] ^^^ rnd k i)) ∧
    randomize k (randomize k p) = p

/-- The six reserved bytes and their stuffed forms (R68, with the constants of assumption 1); every other byte goes
out unchanged. -/
def Obligations.ReservedBytesAreEscaped : Prop :=
  stuffByte Constants.ashv2 0x7E = [0x7D, 0x5E] ∧ stuffByte Constants.ashv2 0x7D = [0x7D, 0x5D] ∧
  stuffByte Constants.ashv2 0x11 = [0x7D, 0x31] ∧ stuffByte Constants.ashv2 0x13 = [0x7D, 0x33] ∧
  stuffByte Constants.ashv2 0x18 = [0x7D, 0x38] ∧ stuffByte Constants.ashv2 0x1A = [0x7D, 0x3A] ∧
  (∀ u : Byte, u ≠ 0x7E → u ≠ 0x7D → u ≠ 0x11 → u ≠ 0x13 → u ≠ 0x18 → u ≠ 0x1A →
    stuffByte Constants.ashv2 u = [u]) ∧
  (∀ us vs : List Byte, stuff Constants.ashv2 (us ++ vs) = stuff Constants.ashv2 us ++ stuff Constants.ashv2 vs)

/-! ### Frames (R51 to R61, R77 to R84) -/

/-- The control bytes as the six commands' rules write them, and the values that never occur (R52 to R55, R61, R87,
R88). -/
def Obligations.ControlBytesHaveTheirLayout : Prop :=
  ∀ k : Latch,
    (k.kind = .data → ctrlByte k =
      (k.frm.zeroExtend 8 <<< 4) ||| (if k.retx then 0x08 else 0x00) ||| k.ack.zeroExtend 8) ∧
    (k.kind = .ack → ctrlByte k = 0x80 ||| (if k.nrdy then 0x08 else 0x00) ||| k.ack.zeroExtend 8) ∧
    (k.kind = .nak → ctrlByte k = 0xA0 ||| (if k.nrdy then 0x08 else 0x00) ||| k.ack.zeroExtend 8) ∧
    (k.kind = .rst → ctrlByte k = 0xC0) ∧ (k.kind = .rstack → ctrlByte k = 0xC1) ∧
    (k.kind = .error → ctrlByte k = 0xC2) ∧
    ¬(0x90 ≤ (ctrlByte k).toNat ∧ (ctrlByte k).toNat ≤ 0x9F) ∧
    ¬(0xB0 ≤ (ctrlByte k).toNat ∧ (ctrlByte k).toNat ≤ 0xBF) ∧
    ¬(0xC3 ≤ (ctrlByte k).toNat)

/-- R58: the length of a wire frame, and its bounds for each kind and for DATA with the default parameters. -/
def Obligations.WireFramesHaveTheirLengths : Prop :=
  ∀ (c : Config) (i : Instr) (p w : List Byte),
    payloadFits i p → encodeFrame c (encode i) p = .ok w →
    w.length = (unstuffedFrame c (latchOf i) p).length +
      (unstuffedFrame c (latchOf i) p).countP (isReserved c.k) + 1 ∧
    (i.kind = .ack ∨ i.kind = .nak ∨ i.kind = .rst → 4 ≤ w.length ∧ w.length ≤ 7) ∧
    (i.kind = .rstack ∨ i.kind = .error → 6 ≤ w.length ∧ w.length ≤ 11) ∧
    (i.kind = .data → p.length + 4 ≤ w.length ∧ w.length ≤ 2 * p.length + 7) ∧
    (i.kind = .data → c = Config.default → 7 ≤ w.length ∧ w.length ≤ 263)

/-- R79: `Encode` depends only on the fields a kind uses (R50) and on the payload. -/
def Obligations.EncodeIgnoresUnusedFields : Prop :=
  ∀ (c : Config) (i j : Instr) (p : List Byte), SameUsedFields i j →
    encodeFrame c (encode i) p = encodeFrame c (encode j) p

/-- A retransmission with the flag set differs from the original in bit 3 of the control byte and in the CRC, and in
no payload byte, for every polynomial with the constant term (R79, R85 corner case f). -/
def Obligations.RetransmitFlagKeepsThePayloadBytes : Prop :=
  ∀ (c : Config) (f : Fields) (p : List Byte), c.k.crcPoly.getLsbD 0 = true → f.retx = false →
    ∃ (ctrl : Byte) (r : List Byte) (x y : Word16),
      unstuffedFrame c (latchOf (.data f)) p = ctrl :: r ++ crcBytes x ∧
      unstuffedFrame c (latchOf (.data { f with retx := true })) p = (ctrl ^^^ 0x08) :: r ++ crcBytes y ∧
      x ≠ y

/-- With the constants of R9 (assumption 1) a frame holds the flag once, as its last byte; the escape byte is always
followed by one of the six escaped forms; no other reserved byte occurs before the flag (R81, R59). -/
def Obligations.FlagEndsTheFrameAndNothingElse : Prop :=
  ∀ (c : Config) (d : Desc) (p w : List Byte), c.k = Constants.ashv2 → encodeFrame c d p = .ok w →
    ∃ s : List Byte, w = s ++ [0x7E] ∧ 0x7E ∉ s ∧
      (∀ b ∈ s, b ∈ ([0x11, 0x13, 0x18, 0x1A] : List Byte) → False) ∧
      ∀ a r : List Byte, s = a ++ 0x7D :: r →
        ∃ x r', r = x :: r' ∧ x ∈ ([0x5E, 0x5D, 0x31, 0x33, 0x38, 0x3A] : List Byte)

/-- R80: `Unframe` inverts `Encode` on every descriptor that is not refused, for all constants that frame a byte
stream (assumption 19; those of R9 do), and returns exactly the fields the kind uses and the payload. -/
def Obligations.UnframeInvertsEncode : Prop :=
  ∀ (c : Config) (i : Instr) (p w : List Byte), FramingConstants c.k → payloadFits i p →
    encodeFrame c (encode i) p = .ok w → unframe c.k w = some (frameOf i p)

/-! ### Whole frames and whole runs (R78, R85 to R91, R111, R112, R116) -/

/-- R78: the streaming steps compute `Encode`. From a block between frames, with prompt sources and sink, the
accepted descriptor's frame is on the line after one ACCEPT and two steps a byte: exactly its bytes, `eof` on the
last and only there, exactly its payload bytes read. -/
def Obligations.StreamingComputesEncode : Prop :=
  ∀ (s : State) (d : Desc) (ds : List Desc) (i : Instr) (p rest w : List Byte),
    s.Live → s.Clean → s.env.Prompt → s.env.cmds = d :: ds → s.env.payload = p ++ rest →
    decode d = .ok i → payloadFits i p → encodeFrame s.cfg d p = .ok w →
    ∃ t es, Host.Core.run core (1 + 2 * w.length) s = .next t ∧
      t.history = s.history ++ .accept d :: (es ++ [.done]) ∧ (∀ e ∈ es, e.onWire = true) ∧
      paysOf es = p ∧ outsOf es = w.dropLast.map (fun b => (b, false)) ++ [(s.cfg.k.flag, true)] ∧
      lineOf es = w ∧
      t.phase = .idle ∧ t.outFull = false ∧ t.err = .noError ∧ t.env.cmds = ds ∧ t.env.payload = rest

/-- In that run the block is busy until the last byte is taken, and ADVANCE and EMIT alternate (R112). -/
def Obligations.AdvanceAndEmitAlternate : Prop :=
  ∀ (s : State) (d : Desc) (ds : List Desc) (i : Instr) (p rest w : List Byte) (j : Nat),
    s.Live → s.Clean → s.env.Prompt → s.env.cmds = d :: ds → s.env.payload = p ++ rest →
    decode d = .ok i → payloadFits i p → encodeFrame s.cfg d p = .ok w → j < 2 * w.length →
    ∃ t, Host.Core.run core (1 + j) s = .next t ∧ t.busy = true ∧ (t.outFull = true ↔ j % 2 = 1)

/-- R85: the frame a DATA command puts on the line: control byte, payload randomized from the seed, CRC over both,
all stuffed, then the flag. -/
def Obligations.DataCommandPutsItsFrameOnTheLine : Prop :=
  ∀ (s : State) (f : Fields) (ds : List Desc) (p rest : List Byte),
    s.Live → s.Clean → s.env.Prompt → s.env.cmds = encode (.data f) :: ds → s.env.payload = p ++ rest →
    p.length = f.len.toNat → s.cfg.minDataPayload ≤ p.length → p.length ≤ s.cfg.maxDataPayload →
    let ctrl : Byte := (f.frm.zeroExtend 8 <<< 4) ||| (if f.retx then 0x08 else 0x00) ||| f.ack.zeroExtend 8
    let r : List Byte := (List.range p.length).zipWith (fun i b => b ^^^ rnd s.cfg.k i) p
    let c : Word16 := crc16 s.cfg.k (ctrl :: r)
    let w : List Byte :=
      stuff s.cfg.k (ctrl :: r ++ [c.extractLsb' 8 8, c.extractLsb' 0 8]) ++ [s.cfg.k.flag]
    ∃ t, Host.Core.run core (1 + 2 * w.length) s = .next t ∧ lineOf t.history = lineOf s.history ++ w ∧
      paysOf t.history = paysOf s.history ++ p ∧ t.env.payload = rest ∧ t.env.cmds = ds ∧
      t.phase = .idle ∧ t.status = 0x00

/-- R87, R88: the frames an ACK and a NAK command put on the line; no payload byte is read, whatever `LEN` holds. -/
def Obligations.AckAndNakCommandsPutTheirFramesOnTheLine : Prop :=
  ∀ (s : State) (f : Fields) (ds : List Desc), s.Live → s.Clean → s.env.Prompt →
    let frame : Byte → List Byte := fun ctrl =>
      let c : Word16 := crc16 s.cfg.k [ctrl]
      stuff s.cfg.k [ctrl, c.extractLsb' 8 8, c.extractLsb' 0 8] ++ [s.cfg.k.flag]
    let puts : List Byte → Prop := fun w =>
      ∃ t, Host.Core.run core (1 + 2 * w.length) s = .next t ∧ lineOf t.history = lineOf s.history ++ w ∧
        paysOf t.history = paysOf s.history ∧ t.env.payload = s.env.payload ∧ t.env.cmds = ds ∧
        t.phase = .idle ∧ t.status = 0x00
    (s.env.cmds = encode (.ack f) :: ds →
      puts (frame (0x80 ||| (if f.nrdy then 0x08 else 0x00) ||| f.ack.zeroExtend 8))) ∧
    (s.env.cmds = encode (.nak f) :: ds →
      puts (frame (0xA0 ||| (if f.nrdy then 0x08 else 0x00) ||| f.ack.zeroExtend 8)))

/-- With the constants of R9 (assumption 1) an RST command puts the four bytes `C0 38 BC 7E` on the line, whatever its other
fields hold (R89). -/
def Obligations.RstCommandPutsItsFrameOnTheLine : Prop :=
  ∀ (s : State) (f : Fields) (ds : List Desc), s.Live → s.Clean → s.env.Prompt →
    s.cfg.k = Constants.ashv2 → s.env.cmds = encode (.rst f) :: ds →
    ∃ t, Host.Core.run core 9 s = .next t ∧ lineOf t.history = lineOf s.history ++ [0xC0, 0x38, 0xBC, 0x7E] ∧
      paysOf t.history = paysOf s.history ∧ t.env.payload = s.env.payload ∧ t.env.cmds = ds ∧
      t.phase = .idle ∧ t.status = 0x00

/-- R90, R91: the frames an RSTACK and an ERROR command put on the line: version, then code, not randomized and not
checked. -/
def Obligations.RstackAndErrorCommandsPutTheirFramesOnTheLine : Prop :=
  ∀ (s : State) (f : Fields) (ds : List Desc), s.Live → s.Clean → s.env.Prompt →
    let frame : Byte → List Byte := fun ctrl =>
      let c : Word16 := crc16 s.cfg.k [ctrl, f.ver, f.code]
      stuff s.cfg.k [ctrl, f.ver, f.code, c.extractLsb' 8 8, c.extractLsb' 0 8] ++ [s.cfg.k.flag]
    let puts : List Byte → Prop := fun w =>
      ∃ t, Host.Core.run core (1 + 2 * w.length) s = .next t ∧ lineOf t.history = lineOf s.history ++ w ∧
        paysOf t.history = paysOf s.history ∧ t.env.payload = s.env.payload ∧ t.env.cmds = ds ∧
        t.phase = .idle ∧ t.status = 0x00
    (s.env.cmds = encode (.rstack f) :: ds → puts (frame 0xC1)) ∧
    (s.env.cmds = encode (.error f) :: ds → puts (frame 0xC2))

/-- A stuck block waits for ever, busy; a payload source or a sink that stops makes it stuck (R111). The first and the
last clause, that a step in which nothing is enabled is a next state which changes nothing of the block, are the
model's choice (assumption 10). -/
def Obligations.StarvedBlockWaitsForEver : Prop :=
  (∀ s : State, s.cfg.ok = true → s.resetSeen = true → s.drive.Stuck → step s = .next s.drive) ∧
  (∀ (s : State) (n : Nat), s.cfg.ok = true → s.resetSeen = true → s.env.script = [] → s.Stuck →
    Host.Core.run core n s = .next s ∧ s.busy = true) ∧
  (∀ s : State, s.Live → s.plReady = true → s.plValid = false → s.Stuck) ∧
  (∀ s : State, s.Live → s.Inv → s.outFull = true → s.env.pins.outReady = false → s.Stuck) ∧
  (∀ s : State, s.drive.Live → s.drive.plReady = true → s.drive.plValid = false → step s = .next s.drive)

/-- R43, R44, R116: any list of descriptors, with at least the payload bytes it needs, runs to its end under prompt
sources and sink: the line holds the accepted commands' frames in the order accepted, the payload bytes are read in
order, and the run has ended. -/
def Obligations.ProgramRunsToItsEnd : Prop :=
  ∀ s : State, s.Live → s.Clean → s.env.Prompt → programNeed s.cfg s.env.cmds ≤ s.env.payload.length →
    ∃ t, Host.Core.run core (programSteps s.cfg s.env.cmds s.env.payload) s = .next t ∧ t.Ended ∧
      lineOf t.history = lineOf s.history ++ programLine s.cfg s.env.cmds s.env.payload ∧
      paysOf t.history = paysOf s.history ++ s.env.payload.take (programNeed s.cfg s.env.cmds) ∧
      t.env.payload = s.env.payload.drop (programNeed s.cfg s.env.cmds)

/-! ### Text (R62) -/

/-- What each command of the text form stands for (R62): its instruction with all fields, 0 where the command writes
none, and its payload; a payload list gives `LEN` by its length, and the pseudo-commands are their expansions, with
the version byte 02. That a list too long for `LEN` stands for nothing is the model's choice (assumption 18). -/
def Obligations.AssembledCommandsMeetTheSyntax : Prop :=
  (∀ (f a : SeqNum) (r : Bool) (p : List Byte), p.length ≤ 255 →
    ∃ n : BitVec 8, n.toNat = p.length ∧ (Command.data f a r p).assemble = some (.data
      { frm := f, ack := a, retx := r, nrdy := false, rsvd := 0, len := n, ver := 0, code := 0 }, p)) ∧
  (∀ (f a : SeqNum) (r : Bool) (p : List Byte), 255 < p.length → (Command.data f a r p).assemble = none) ∧
  (∀ (a : SeqNum) (n : Bool), (Command.ack a n).assemble = some (.ack
    { frm := 0, ack := a, retx := false, nrdy := n, rsvd := 0, len := 0, ver := 0, code := 0 }, [])) ∧
  (∀ (a : SeqNum) (n : Bool), (Command.nak a n).assemble = some (.nak
    { frm := 0, ack := a, retx := false, nrdy := n, rsvd := 0, len := 0, ver := 0, code := 0 }, [])) ∧
  Command.rst.assemble = some (.rst
    { frm := 0, ack := 0, retx := false, nrdy := false, rsvd := 0, len := 0, ver := 0, code := 0 }, []) ∧
  (∀ v c : Byte, (Command.rstack v c).assemble = some (.rstack
    { frm := 0, ack := 0, retx := false, nrdy := false, rsvd := 0, len := 0, ver := v, code := c }, [])) ∧
  (∀ v c : Byte, (Command.error v c).assemble = some (.error
    { frm := 0, ack := 0, retx := false, nrdy := false, rsvd := 0, len := 0, ver := v, code := c }, [])) ∧
  (∀ (f a : SeqNum) (p : List Byte), (Command.retx f a p).assemble = (Command.data f a true p).assemble) ∧
  (∀ c : Byte, (Command.rstack2 c).assemble = (Command.rstack 0x02 c).assemble ∧
    (Command.error2 c).assemble = (Command.error 0x02 c).assemble) ∧
  (∀ (c : Command) (i : Instr) (p : List Byte), c.assemble = some (i, p) →
    payloadFits i p ∧ decode (encode i) = .ok i)

/-! ### Completion under fairness (R112, R118) -/

/-- R112, R78: in every execution that meets the launch premises of R118, with any weakly fair payload source and sink,
every accepted frame completes: it puts exactly `Encode` of its descriptor and of the payload meant for it on the line,
`eof` on the last byte and only there, reads exactly that payload, and takes exactly as many ADVANCE and as many EMIT
steps as the wire frame has bytes, alternating, ADVANCE first, and no other step but waiting ones. The form of the
premises is the model's reading (assumption 26), and that a waiting step is a next state its choice (assumption 10). -/
def Obligations.FairFramesComplete : Prop :=
  ∀ (x : Nat → State) (want : Nat → List Byte), Execution x → LaunchPremises x want →
    ∀ (n : Nat) (d : Desc), (x (n + 1)).history = (x n).history ++ [.accept d] →
      let p : List Byte := want (framesBegun (x (n + 1)).history)
      ∃ (j : Nat) (w : List Byte) (es : List Event),
        encodeFrame (x n).cfg d p = .ok w ∧
        (x (n + 1 + j)).history = (x (n + 1)).history ++ (es ++ [.done]) ∧ (∀ e ∈ es, e.onWire = true) ∧
        paysOf es = p ∧ outsOf es = w.dropLast.map (fun b => (b, false)) ++ [((x n).cfg.k.flag, true)] ∧
        lineOf es = w ∧
        (x (n + 1 + j)).phase = .idle ∧ (x (n + 1 + j)).err = .noError ∧
        stepsTaken x (n + 1) j = (List.replicate w.length [StepKind.advance, StepKind.emit]).flatten
end

