-- ==== Sys2Proof/Laws/State.lean ====
section
/-! SUPPORT. One lemma per field per named update of State: what the update leaves in the field. -/

namespace Sys2Proof.Machine.State

variable (s : State)

/-! ### `record` -/

@[simp] theorem record_cfg (es : List Event) : (s.record es).cfg = s.cfg := rfl
@[simp] theorem record_resetSeen (es : List Event) : (s.record es).resetSeen = s.resetSeen := rfl
@[simp] theorem record_phase (es : List Event) : (s.record es).phase = s.phase := rfl
@[simp] theorem record_idx (es : List Event) : (s.record es).idx = s.idx := rfl
@[simp] theorem record_latch (es : List Event) : (s.record es).latch = s.latch := rfl
@[simp] theorem record_crc (es : List Event) : (s.record es).crc = s.crc := rfl
@[simp] theorem record_lfsr (es : List Event) : (s.record es).lfsr = s.lfsr := rfl
@[simp] theorem record_escPend (es : List Event) : (s.record es).escPend = s.escPend := rfl
@[simp] theorem record_escByte (es : List Event) : (s.record es).escByte = s.escByte := rfl
@[simp] theorem record_outFull (es : List Event) : (s.record es).outFull = s.outFull := rfl
@[simp] theorem record_outByte (es : List Event) : (s.record es).outByte = s.outByte := rfl
@[simp] theorem record_outLast (es : List Event) : (s.record es).outLast = s.outLast := rfl
@[simp] theorem record_err (es : List Event) : (s.record es).err = s.err := rfl
@[simp] theorem record_history (es : List Event) : (s.record es).history = s.history ++ es := rfl
@[simp] theorem record_env (es : List Event) : (s.record es).env = s.env := rfl

/-! ### `outPut` -/

@[simp] theorem outPut_cfg (b : Byte) (l : Bool) : (s.outPut b l).cfg = s.cfg := rfl
@[simp] theorem outPut_resetSeen (b : Byte) (l : Bool) : (s.outPut b l).resetSeen = s.resetSeen := rfl
@[simp] theorem outPut_phase (b : Byte) (l : Bool) : (s.outPut b l).phase = s.phase := rfl
@[simp] theorem outPut_idx (b : Byte) (l : Bool) : (s.outPut b l).idx = s.idx := rfl
@[simp] theorem outPut_latch (b : Byte) (l : Bool) : (s.outPut b l).latch = s.latch := rfl
@[simp] theorem outPut_crc (b : Byte) (l : Bool) : (s.outPut b l).crc = s.crc := rfl
@[simp] theorem outPut_lfsr (b : Byte) (l : Bool) : (s.outPut b l).lfsr = s.lfsr := rfl
@[simp] theorem outPut_escPend (b : Byte) (l : Bool) : (s.outPut b l).escPend = s.escPend := rfl
@[simp] theorem outPut_escByte (b : Byte) (l : Bool) : (s.outPut b l).escByte = s.escByte := rfl
@[simp] theorem outPut_outFull (b : Byte) (l : Bool) : (s.outPut b l).outFull = true := rfl
@[simp] theorem outPut_outByte (b : Byte) (l : Bool) : (s.outPut b l).outByte = b := rfl
@[simp] theorem outPut_outLast (b : Byte) (l : Bool) : (s.outPut b l).outLast = l := rfl
@[simp] theorem outPut_err (b : Byte) (l : Bool) : (s.outPut b l).err = s.err := rfl
@[simp] theorem outPut_history (b : Byte) (l : Bool) : (s.outPut b l).history = s.history := rfl
@[simp] theorem outPut_env (b : Byte) (l : Bool) : (s.outPut b l).env = s.env := rfl

/-! ### `absorb` -/

@[simp] theorem absorb_cfg (u : Byte) : (s.absorb u).cfg = s.cfg := rfl
@[simp] theorem absorb_resetSeen (u : Byte) : (s.absorb u).resetSeen = s.resetSeen := rfl
@[simp] theorem absorb_phase (u : Byte) : (s.absorb u).phase = s.phase := rfl
@[simp] theorem absorb_idx (u : Byte) : (s.absorb u).idx = s.idx := rfl
@[simp] theorem absorb_latch (u : Byte) : (s.absorb u).latch = s.latch := rfl
@[simp] theorem absorb_crc (u : Byte) : (s.absorb u).crc = crcStep s.cfg.k s.crc u := rfl
@[simp] theorem absorb_lfsr (u : Byte) : (s.absorb u).lfsr = s.lfsr := rfl
@[simp] theorem absorb_escPend (u : Byte) : (s.absorb u).escPend = s.escPend := rfl
@[simp] theorem absorb_escByte (u : Byte) : (s.absorb u).escByte = s.escByte := rfl
@[simp] theorem absorb_outFull (u : Byte) : (s.absorb u).outFull = s.outFull := rfl
@[simp] theorem absorb_outByte (u : Byte) : (s.absorb u).outByte = s.outByte := rfl
@[simp] theorem absorb_outLast (u : Byte) : (s.absorb u).outLast = s.outLast := rfl
@[simp] theorem absorb_err (u : Byte) : (s.absorb u).err = s.err := rfl
@[simp] theorem absorb_history (u : Byte) : (s.absorb u).history = s.history := rfl
@[simp] theorem absorb_env (u : Byte) : (s.absorb u).env = s.env := rfl

/-! ### `dropPayload` -/

@[simp] theorem dropPayload_cfg : (s.dropPayload).cfg = s.cfg := rfl
@[simp] theorem dropPayload_resetSeen : (s.dropPayload).resetSeen = s.resetSeen := rfl
@[simp] theorem dropPayload_phase : (s.dropPayload).phase = s.phase := rfl
@[simp] theorem dropPayload_idx : (s.dropPayload).idx = s.idx := rfl
@[simp] theorem dropPayload_latch : (s.dropPayload).latch = s.latch := rfl
@[simp] theorem dropPayload_crc : (s.dropPayload).crc = s.crc := rfl
@[simp] theorem dropPayload_lfsr : (s.dropPayload).lfsr = s.lfsr := rfl
@[simp] theorem dropPayload_escPend : (s.dropPayload).escPend = s.escPend := rfl
@[simp] theorem dropPayload_escByte : (s.dropPayload).escByte = s.escByte := rfl
@[simp] theorem dropPayload_outFull : (s.dropPayload).outFull = s.outFull := rfl
@[simp] theorem dropPayload_outByte : (s.dropPayload).outByte = s.outByte := rfl
@[simp] theorem dropPayload_outLast : (s.dropPayload).outLast = s.outLast := rfl
@[simp] theorem dropPayload_err : (s.dropPayload).err = s.err := rfl
@[simp] theorem dropPayload_history : (s.dropPayload).history = s.history := rfl
@[simp] theorem dropPayload_env : (s.dropPayload).env = { s.env with payload := s.env.payload.tail } := rfl

/-! ### `dropCmd` -/

@[simp] theorem dropCmd_cfg : (s.dropCmd).cfg = s.cfg := rfl
@[simp] theorem dropCmd_resetSeen : (s.dropCmd).resetSeen = s.resetSeen := rfl
@[simp] theorem dropCmd_phase : (s.dropCmd).phase = s.phase := rfl
@[simp] theorem dropCmd_idx : (s.dropCmd).idx = s.idx := rfl
@[simp] theorem dropCmd_latch : (s.dropCmd).latch = s.latch := rfl
@[simp] theorem dropCmd_crc : (s.dropCmd).crc = s.crc := rfl
@[simp] theorem dropCmd_lfsr : (s.dropCmd).lfsr = s.lfsr := rfl
@[simp] theorem dropCmd_escPend : (s.dropCmd).escPend = s.escPend := rfl
@[simp] theorem dropCmd_escByte : (s.dropCmd).escByte = s.escByte := rfl
@[simp] theorem dropCmd_outFull : (s.dropCmd).outFull = s.outFull := rfl
@[simp] theorem dropCmd_outByte : (s.dropCmd).outByte = s.outByte := rfl
@[simp] theorem dropCmd_outLast : (s.dropCmd).outLast = s.outLast := rfl
@[simp] theorem dropCmd_err : (s.dropCmd).err = s.err := rfl
@[simp] theorem dropCmd_history : (s.dropCmd).history = s.history := rfl
@[simp] theorem dropCmd_env : (s.dropCmd).env = { s.env with cmds := s.env.cmds.tail } := rfl

/-! ### `drive` -/

@[simp] theorem drive_cfg : (s.drive).cfg = s.cfg := rfl
@[simp] theorem drive_resetSeen : (s.drive).resetSeen = s.resetSeen := rfl
@[simp] theorem drive_phase : (s.drive).phase = s.phase := rfl
@[simp] theorem drive_idx : (s.drive).idx = s.idx := rfl
@[simp] theorem drive_latch : (s.drive).latch = s.latch := rfl
@[simp] theorem drive_crc : (s.drive).crc = s.crc := rfl
@[simp] theorem drive_lfsr : (s.drive).lfsr = s.lfsr := rfl
@[simp] theorem drive_escPend : (s.drive).escPend = s.escPend := rfl
@[simp] theorem drive_escByte : (s.drive).escByte = s.escByte := rfl
@[simp] theorem drive_outFull : (s.drive).outFull = s.outFull := rfl
@[simp] theorem drive_outByte : (s.drive).outByte = s.outByte := rfl
@[simp] theorem drive_outLast : (s.drive).outLast = s.outLast := rfl
@[simp] theorem drive_err : (s.drive).err = s.err := rfl
@[simp] theorem drive_history : (s.drive).history = s.history := rfl
theorem drive_env : (s.drive).env = s.env.drive := rfl

/-! ### `startFrame` -/

@[simp] theorem startFrame_cfg (i : Instr) : (s.startFrame i).cfg = s.cfg := rfl
@[simp] theorem startFrame_resetSeen (i : Instr) : (s.startFrame i).resetSeen = s.resetSeen := rfl
@[simp] theorem startFrame_phase (i : Instr) : (s.startFrame i).phase = .ctrl := rfl
@[simp] theorem startFrame_idx (i : Instr) : (s.startFrame i).idx = 0 := rfl
@[simp] theorem startFrame_latch (i : Instr) : (s.startFrame i).latch = some (latchOf i) := rfl
@[simp] theorem startFrame_crc (i : Instr) : (s.startFrame i).crc = s.cfg.k.crcInit := rfl
@[simp] theorem startFrame_lfsr (i : Instr) : (s.startFrame i).lfsr = s.cfg.k.lfsrSeed := rfl
@[simp] theorem startFrame_escPend (i : Instr) : (s.startFrame i).escPend = s.escPend := rfl
@[simp] theorem startFrame_escByte (i : Instr) : (s.startFrame i).escByte = s.escByte := rfl
@[simp] theorem startFrame_outFull (i : Instr) : (s.startFrame i).outFull = s.outFull := rfl
@[simp] theorem startFrame_outByte (i : Instr) : (s.startFrame i).outByte = s.outByte := rfl
@[simp] theorem startFrame_outLast (i : Instr) : (s.startFrame i).outLast = s.outLast := rfl
@[simp] theorem startFrame_err (i : Instr) : (s.startFrame i).err = .noError := rfl
@[simp] theorem startFrame_history (i : Instr) : (s.startFrame i).history = s.history ++ [.accept (encode i)] := rfl
@[simp] theorem startFrame_env (i : Instr) : (s.startFrame i).env = s.env := rfl

/-! ### `refuse` -/

@[simp] theorem refuse_cfg (c : ErrCode) : (s.refuse c).cfg = s.cfg := rfl
@[simp] theorem refuse_resetSeen (c : ErrCode) : (s.refuse c).resetSeen = s.resetSeen := rfl
@[simp] theorem refuse_phase (c : ErrCode) : (s.refuse c).phase = s.phase := rfl
@[simp] theorem refuse_idx (c : ErrCode) : (s.refuse c).idx = s.idx := rfl
@[simp] theorem refuse_latch (c : ErrCode) : (s.refuse c).latch = s.latch := rfl
@[simp] theorem refuse_crc (c : ErrCode) : (s.refuse c).crc = s.crc := rfl
@[simp] theorem refuse_lfsr (c : ErrCode) : (s.refuse c).lfsr = s.lfsr := rfl
@[simp] theorem refuse_escPend (c : ErrCode) : (s.refuse c).escPend = s.escPend := rfl
@[simp] theorem refuse_escByte (c : ErrCode) : (s.refuse c).escByte = s.escByte := rfl
@[simp] theorem refuse_outFull (c : ErrCode) : (s.refuse c).outFull = s.outFull := rfl
@[simp] theorem refuse_outByte (c : ErrCode) : (s.refuse c).outByte = s.outByte := rfl
@[simp] theorem refuse_outLast (c : ErrCode) : (s.refuse c).outLast = s.outLast := rfl
@[simp] theorem refuse_err (c : ErrCode) : (s.refuse c).err = c := rfl
@[simp] theorem refuse_history (c : ErrCode) : (s.refuse c).history = s.history ++ [.refused c] := rfl
@[simp] theorem refuse_env (c : ErrCode) : (s.refuse c).env = s.env := rfl

/-! ### `resetStep` -/

@[simp] theorem resetStep_cfg : (s.resetStep).cfg = s.cfg := rfl
@[simp] theorem resetStep_resetSeen : (s.resetStep).resetSeen = true := rfl
@[simp] theorem resetStep_phase : (s.resetStep).phase = .idle := rfl
@[simp] theorem resetStep_idx : (s.resetStep).idx = 0 := rfl
@[simp] theorem resetStep_latch : (s.resetStep).latch = none := rfl
@[simp] theorem resetStep_crc : (s.resetStep).crc = s.cfg.k.crcInit := rfl
@[simp] theorem resetStep_lfsr : (s.resetStep).lfsr = s.cfg.k.lfsrSeed := rfl
@[simp] theorem resetStep_escPend : (s.resetStep).escPend = false := rfl
@[simp] theorem resetStep_escByte : (s.resetStep).escByte = 0x00 := rfl
@[simp] theorem resetStep_outFull : (s.resetStep).outFull = false := rfl
@[simp] theorem resetStep_outByte : (s.resetStep).outByte = 0x00 := rfl
@[simp] theorem resetStep_outLast : (s.resetStep).outLast = false := rfl
@[simp] theorem resetStep_err : (s.resetStep).err = .noError := rfl
@[simp] theorem resetStep_history : (s.resetStep).history = s.history ++ [.reset] := rfl
@[simp] theorem resetStep_env : (s.resetStep).env = s.env := rfl

/-! ### `emit` -/

@[simp] theorem emit_cfg : (s.emit).cfg = s.cfg := rfl
@[simp] theorem emit_resetSeen : (s.emit).resetSeen = s.resetSeen := rfl
@[simp] theorem emit_phase : (s.emit).phase = if s.outLast then .idle else s.phase := rfl
@[simp] theorem emit_idx : (s.emit).idx = s.idx := rfl
@[simp] theorem emit_latch : (s.emit).latch = s.latch := rfl
@[simp] theorem emit_crc : (s.emit).crc = s.crc := rfl
@[simp] theorem emit_lfsr : (s.emit).lfsr = s.lfsr := rfl
@[simp] theorem emit_escPend : (s.emit).escPend = s.escPend := rfl
@[simp] theorem emit_escByte : (s.emit).escByte = s.escByte := rfl
@[simp] theorem emit_outFull : (s.emit).outFull = false := rfl
@[simp] theorem emit_outByte : (s.emit).outByte = s.outByte := rfl
@[simp] theorem emit_outLast : (s.emit).outLast = s.outLast := rfl
@[simp] theorem emit_err : (s.emit).err = s.err := rfl
@[simp] theorem emit_history : (s.emit).history = s.history ++ (.out s.outByte s.outLast :: if s.outLast then [.done] else []) := rfl
@[simp] theorem emit_env : (s.emit).env = s.env := rfl

/-! ### `putStuffed`: it writes the slot and the escape register only (R73) -/

@[simp] theorem putStuffed_cfg (u : Byte) : (s.putStuffed u).cfg = s.cfg := by
  unfold putStuffed; split <;> rfl
@[simp] theorem putStuffed_resetSeen (u : Byte) : (s.putStuffed u).resetSeen = s.resetSeen := by
  unfold putStuffed; split <;> rfl
@[simp] theorem putStuffed_phase (u : Byte) : (s.putStuffed u).phase = s.phase := by
  unfold putStuffed; split <;> rfl
@[simp] theorem putStuffed_idx (u : Byte) : (s.putStuffed u).idx = s.idx := by
  unfold putStuffed; split <;> rfl
@[simp] theorem putStuffed_latch (u : Byte) : (s.putStuffed u).latch = s.latch := by
  unfold putStuffed; split <;> rfl
@[simp] theorem putStuffed_crc (u : Byte) : (s.putStuffed u).crc = s.crc := by
  unfold putStuffed; split <;> rfl
@[simp] theorem putStuffed_lfsr (u : Byte) : (s.putStuffed u).lfsr = s.lfsr := by
  unfold putStuffed; split <;> rfl
@[simp] theorem putStuffed_err (u : Byte) : (s.putStuffed u).err = s.err := by
  unfold putStuffed; split <;> rfl
@[simp] theorem putStuffed_history (u : Byte) : (s.putStuffed u).history = s.history := by
  unfold putStuffed; split <;> rfl
@[simp] theorem putStuffed_env (u : Byte) : (s.putStuffed u).env = s.env := by
  unfold putStuffed; split <;> rfl
@[simp] theorem putStuffed_outFull (u : Byte) : (s.putStuffed u).outFull = true := by
  unfold putStuffed; split <;> rfl
@[simp] theorem putStuffed_outLast (u : Byte) : (s.putStuffed u).outLast = false := by
  unfold putStuffed; split <;> rfl
@[simp] theorem putStuffed_outByte (u : Byte) :
    (s.putStuffed u).outByte = if isReserved s.cfg.k u then s.cfg.k.esc else u := by
  unfold putStuffed; split <;> rfl
@[simp] theorem putStuffed_escPend (u : Byte) :
    (s.putStuffed u).escPend = if isReserved s.cfg.k u then true else s.escPend := by
  unfold putStuffed; split <;> rfl
@[simp] theorem putStuffed_escByte (u : Byte) :
    (s.putStuffed u).escByte = if isReserved s.cfg.k u then escaped s.cfg.k u else s.escByte := by
  unfold putStuffed; split <;> rfl

end Sys2Proof.Machine.State
end

