-- ==== Sys2Proof/Laws/Streams.lean ====
section
/-! SUPPORT. The functions on byte sequences and on histories: how each passes over an append or a cons. -/

namespace Sys2Proof.Machine

variable (k : Constants)

@[simp] theorem crcFrom_nil (c : Word16) : crcFrom k c [] = c := rfl

@[simp] theorem crcFrom_cons (c : Word16) (b : Byte) (q : List Byte) :
    crcFrom k c (b :: q) = crcFrom k (crcStep k c b) q := rfl

theorem crcFrom_append (c : Word16) (p q : List Byte) :
    crcFrom k c (p ++ q) = crcFrom k (crcFrom k c p) q := List.foldl_append

@[simp] theorem stuff_nil : stuff k [] = [] := rfl

@[simp] theorem stuff_cons (u : Byte) (us : List Byte) : stuff k (u :: us) = stuffByte k u ++ stuff k us := rfl

@[simp] theorem stuff_append (us vs : List Byte) : stuff k (us ++ vs) = stuff k us ++ stuff k vs :=
  List.flatMap_append

@[simp] theorem randomizeFrom_nil (r : Byte) : randomizeFrom k r [] = [] := rfl

@[simp] theorem randomizeFrom_cons (r b : Byte) (p : List Byte) :
    randomizeFrom k r (b :: p) = (b ^^^ r) :: randomizeFrom k (lfsrStep k r) p := rfl

@[simp] theorem randomizeFrom_length (r : Byte) (p : List Byte) : (randomizeFrom k r p).length = p.length := by
  induction p generalizing r with
  | nil => rfl
  | cons b p ih => simp [ih]

theorem crcBytes_length (x : Word16) : (crcBytes x).length = 2 := rfl

/-- A stuffed sequence is as long as the sequence and its reserved bytes together (R58). -/
theorem stuff_length (us : List Byte) : (stuff k us).length = us.length + us.countP (isReserved k) := by
  induction us with
  | nil => rfl
  | cons u us ih =>
    simp only [stuff_cons, List.length_append, ih, List.length_cons, List.countP_cons, stuffByte]
    split <;> simp <;> omega

@[simp] theorem paysOf_append (es fs : List Event) : paysOf (es ++ fs) = paysOf es ++ paysOf fs := by
  induction es with
  | nil => rfl
  | cons e es ih => cases e <;> simp [paysOf, ih]

@[simp] theorem outsOf_append (es fs : List Event) : outsOf (es ++ fs) = outsOf es ++ outsOf fs := by
  induction es with
  | nil => rfl
  | cons e es ih => cases e <;> simp [outsOf, ih]

@[simp] theorem lineOf_append (es fs : List Event) : lineOf (es ++ fs) = lineOf es ++ lineOf fs := by
  simp [lineOf]

/-- An event inside a frame is an event of a frame. -/
theorem Event.onWire_of_inFrame (e : Event) (h : e.inFrame = true) : e.onWire = true := by
  cases e <;> simp_all [Event.inFrame, Event.onWire]

end Sys2Proof.Machine
end

