-- ==== Sys2Proof/Laws/Step.lean ====
section
/-! SUPPORT. What each shared operation can do, said once: `withLatch`, `advance`, `exec`, `acceptStep`, `act`.  A
later proof cites these instead of unfolding the operation. -/

namespace Sys2Proof.Machine

open Host (Outcome)

/-- A latch read answers a state only where the latch holds a value. -/
theorem State.withLatch_cases {s t : State} {f : Latch → State} (h : s.withLatch f = .next t) :
    ∃ k, s.latch = some k ∧ t = f k := by
  unfold State.withLatch at h
  split at h
  · rename_i k hk
    exact ⟨k, hk, by simpa using h.symm⟩
  · simp at h

/-- Everything ADVANCE can do when it is enabled (R72). -/
theorem State.advance_cases {s t : State} (he : s.advanceEnabled = true) (h : s.advance = .next t) :
    (s.escPend = true ∧ t = s.advPending) ∨
    (s.escPend = false ∧
      ((s.phase = .ctrl ∧ ∃ k, s.latch = some k ∧ t = s.advCtrl k) ∨
       (s.phase = .payload ∧ ∃ k b p, s.latch = some k ∧ s.env.payload = b :: p ∧ t = s.advPayload k b) ∨
       (s.phase = .version ∧ ∃ k, s.latch = some k ∧ t = s.advVersion k) ∨
       (s.phase = .code ∧ ∃ k, s.latch = some k ∧ t = s.advCode k) ∨
       (s.phase = .crcHi ∧ t = s.advCrcHi) ∨
       (s.phase = .crcLo ∧ t = s.advCrcLo) ∨
       (s.phase = .flag ∧ t = s.advFlag))) := by
  unfold State.advance at h
  split at h
  · rename_i hp
    exact .inl ⟨hp, by simpa using h.symm⟩
  · rename_i hp
    have hp : s.escPend = false := by simpa using hp
    refine .inr ⟨hp, ?_⟩
    cases hph : s.phase <;> simp only [hph] at h
    case idle => simp [State.advanceEnabled, hph] at he
    case drain => simp [State.advanceEnabled, hph] at he
    case ctrl => exact .inl ⟨rfl, State.withLatch_cases h⟩
    case payload =>
      cases hq : s.env.payload with
      | nil => simp [State.advanceEnabled, State.plValid, hph, hp, hq] at he
      | cons b p =>
        simp only [hq] at h
        obtain ⟨k, hk, ht⟩ := State.withLatch_cases h
        exact .inr (.inl ⟨rfl, k, b, p, hk, rfl, ht⟩)
    case version => exact .inr (.inr (.inl ⟨rfl, State.withLatch_cases h⟩))
    case code => exact .inr (.inr (.inr (.inl ⟨rfl, State.withLatch_cases h⟩)))
    case crcHi => exact .inr (.inr (.inr (.inr (.inl ⟨rfl, by simpa using h.symm⟩))))
    case crcLo => exact .inr (.inr (.inr (.inr (.inr (.inl ⟨rfl, by simpa using h.symm⟩)))))
    case flag => exact .inr (.inr (.inr (.inr (.inr (.inr ⟨rfl, by simpa using h.symm⟩)))))

/-- A refusal of a command is that of its descriptor's length checks; every other command starts its frame. -/
theorem exec_eq (i : Instr) (s : State) :
    exec i s = s.transfer (match acceptRefusal s.cfg i with
      | some c => s.refuse c
      | none => s.startFrame i) := by
  cases i <;> simp only [exec, execAck, execNak, execRst, execRstack, execError, execData, acceptRefusal]
  split <;> simp_all

/-- A transfer on a channel that can transfer takes effect. -/
theorem State.transfer_of_canTransfer {s : State} (h : s.canTransfer = true) (t : State) :
    s.transfer t = .next t := by simp [State.transfer, h]

@[simp] theorem State.canTransfer_dropCmd (s : State) : s.dropCmd.canTransfer = s.canTransfer := rfl

/-- Everything ACCEPT can do when it is enabled (R71, R93): it starts the frame of the offered descriptor, or
refuses it. -/
theorem State.acceptStep_cases {s : State} (he : s.acceptEnabled = true) :
    ∃ d ds, s.env.cmds = d :: ds ∧
      ((∃ i, decode d = .ok i ∧ acceptRefusal s.cfg i = none ∧ s.acceptStep = .next (s.dropCmd.startFrame i)) ∨
       (∃ i c, decode d = .ok i ∧ acceptRefusal s.cfg i = some c ∧ s.acceptStep = .next (s.dropCmd.refuse c)) ∨
       (decode d = .error .illegalKind ∧ s.acceptStep = .next (s.dropCmd.refuse .illegalKind))) := by
  simp only [State.acceptEnabled, State.cmdValid, Bool.and_eq_true] at he
  obtain ⟨ht, -, hc⟩ := he
  cases hd : s.env.cmds with
  | nil => simp [hd] at hc
  | cons d ds =>
    refine ⟨d, ds, rfl, ?_⟩
    unfold State.acceptStep
    simp only [hd]
    cases hdec : decode d with
    | error e => cases e; exact .inr (.inr ⟨rfl, rfl⟩)
    | ok i =>
      simp only [exec_eq, State.transfer_of_canTransfer (show s.dropCmd.canTransfer = true from ht),
        State.dropCmd_cfg]
      cases hr : acceptRefusal s.cfg i with
      | none => exact .inl ⟨i, rfl, hr, rfl⟩
      | some c => exact .inr (.inl ⟨i, c, rfl, hr, rfl⟩)

/-- Everything a step can do when it answers a next state (R100). -/
theorem State.act_cases {s t : State} (h : s.act = .next t) :
    s.cfg.ok = true ∧
    ((s.env.pins.rst = true ∧ t = s.resetStep) ∨
     (s.env.pins.rst = false ∧ s.resetSeen = true ∧
      ((s.env.pins.abort = true ∧ t = s.abortStep) ∨
       (s.env.pins.abort = false ∧
        ((s.acceptEnabled = true ∧ s.acceptStep = .next t) ∨
         (s.acceptEnabled = false ∧ s.emitEnabled = true ∧ t = s.emit) ∨
         (s.acceptEnabled = false ∧ s.emitEnabled = false ∧ s.advanceEnabled = true ∧ s.advance = .next t) ∨
         (s.acceptEnabled = false ∧ s.emitEnabled = false ∧ s.advanceEnabled = false ∧ t = s)))))) := by
  unfold State.act at h
  cases h1 : s.cfg.ok <;> simp only [h1, Bool.not_true, Bool.not_false, if_true, reduceCtorEq] at h
  cases h2 : s.env.pins.rst <;> simp only [h2, if_true] at h
  case true => exact ⟨rfl, .inl ⟨rfl, by simpa using h.symm⟩⟩
  cases h3 : s.resetSeen <;> simp only [h3, Bool.not_true, Bool.not_false, if_true, reduceCtorEq] at h
  · simp at h
  refine ⟨rfl, .inr ⟨rfl, rfl, ?_⟩⟩
  cases h4 : s.env.pins.abort <;> simp only [h4, if_true] at h
  case true => exact .inl ⟨rfl, by simpa using h.symm⟩
  refine .inr ⟨rfl, ?_⟩
  cases h5 : s.acceptEnabled <;> simp only [h5, if_true] at h
  case true => exact .inl ⟨rfl, by simpa using h⟩
  cases h6 : s.emitEnabled <;> simp only [h6, if_true] at h
  case true => exact .inr (.inl ⟨rfl, rfl, by simpa using h.symm⟩)
  cases h7 : s.advanceEnabled <;> simp only [h7, if_true] at h
  case true => exact .inr (.inr (.inl ⟨rfl, rfl, rfl, by simpa using h⟩))
  exact .inr (.inr (.inr ⟨rfl, rfl, rfl, by simpa using h.symm⟩))

/-! ### When each step is enabled -/

theorem step_eq_act (s : State) : step s = s.drive.act := rfl

/-- ACCEPT is enabled only between frames, with reset and abort released and the source offering (R71). -/
theorem State.acceptEnabled_facts {u : State} (h : u.acceptEnabled = true) :
    u.phase = .idle ∧ u.env.pins.rst = false ∧ u.env.pins.abort = false ∧ u.env.pins.cmdValid = true := by
  simp only [State.acceptEnabled, State.canTransfer, State.cmdReady, State.cmdValid, Bool.and_eq_true,
    decide_eq_true_eq, Bool.not_eq_true'] at h
  tauto

theorem State.emitEnabled_facts {u : State} (h : u.emitEnabled = true) :
    u.outFull = true ∧ u.env.pins.outReady = true := by simpa [State.emitEnabled] using h

/-- ADVANCE is enabled only inside a frame and with an empty slot (R72). -/
theorem State.advanceEnabled_facts {u : State} (h : u.advanceEnabled = true) :
    u.phase ≠ .idle ∧ u.phase ≠ .drain ∧ u.outFull = false := by
  simp [State.advanceEnabled] at h
  tauto

/-- A step of a live block takes the one enabled step (R100). -/
theorem State.act_of_live {s : State} (h : s.Live) :
    s.act = if s.acceptEnabled then s.acceptStep
      else if s.emitEnabled then .next s.emit
      else if s.advanceEnabled then s.advance
      else .next s := by
  obtain ⟨a, b, c, d⟩ := h
  simp [State.act, a, b, c, d]

/-- Everything a step can do when it answers a next state, with what each case rests on.  An invariant's proof is a
case analysis on it. -/
inductive StepCase (u t : State) : Prop
  | reset (h : u.env.pins.rst = true) (e : t = u.resetStep)
  | abortIdle (h : u.env.pins.rst = false) (ha : u.env.pins.abort = true) (hp : u.phase = .idle) (e : t = u)
  | abort (h : u.env.pins.rst = false) (ha : u.env.pins.abort = true) (hp : u.phase ≠ .idle)
      (e : t = ({ u with phase := .idle, outFull := false, escPend := false, err := .aborted } : State).record
        [.aborted])
  | start (hl : u.Live) (ha : u.acceptEnabled = true) (d : Desc) (ds : List Desc) (i : Instr)
      (hc : u.env.cmds = d :: ds) (hd : decode d = .ok i) (hr : acceptRefusal u.cfg i = none)
      (e : t = u.dropCmd.startFrame i)
  | refuse (hl : u.Live) (ha : u.acceptEnabled = true) (d : Desc) (ds : List Desc) (c : ErrCode)
      (hc : u.env.cmds = d :: ds) (hd : ∀ p, encodeFrame u.cfg d p = .error c) (e : t = u.dropCmd.refuse c)
  | emit (hl : u.Live) (ha : u.acceptEnabled = false) (he : u.emitEnabled = true) (e : t = u.emit)
  | advance (hl : u.Live) (ha : u.acceptEnabled = false) (he : u.emitEnabled = false)
      (hv : u.advanceEnabled = true) (e : u.advance = .next t)
  | wait (hl : u.Live) (ha : u.acceptEnabled = false) (he : u.emitEnabled = false)
      (hv : u.advanceEnabled = false) (e : t = u)

theorem State.stepCase {u t : State} (h : u.act = .next t) : StepCase u t := by
  obtain ⟨h0, h1 | ⟨h1, h2, h3⟩⟩ := State.act_cases h
  · exact .reset h1.1 h1.2
  rcases h3 with ⟨h3, e⟩ | ⟨h3, h4⟩
  · by_cases hp : u.phase = .idle
    · exact .abortIdle h1 h3 hp (by rw [e, State.abortStep, if_pos hp])
    · exact .abort h1 h3 hp (by rw [e, State.abortStep, if_neg hp])
  · have hl : u.Live := ⟨h0, h2, h1, h3⟩
    rcases h4 with ⟨ha, e⟩ | ⟨ha, he, e⟩ | ⟨ha, he, hv, e⟩ | ⟨ha, he, hv, e⟩
    · obtain ⟨d, ds, hc, hh⟩ := State.acceptStep_cases ha
      rcases hh with ⟨i, a, b, e'⟩ | ⟨i, c, a, b, e'⟩ | ⟨a, e'⟩ <;> rw [e'] at e <;> injection e with e
      · exact .start hl ha d ds i hc a b e.symm
      · exact .refuse hl ha d ds c hc (by simp [encodeFrame, a, b]) e.symm
      · exact .refuse hl ha d ds _ hc (by simp [encodeFrame, a]) e.symm
    · exact .emit hl ha he e
    · exact .advance hl ha he hv e
    · exact .wait hl ha he hv e

end Sys2Proof.Machine
end

