-- ==== Sys2Proof/Laws/Streaming.lean ====
section
/-! SUPPORT. What the streaming steps do to the frame in progress: the wire bytes still to come, and the invariant of
R32.  A proof about ADVANCE or EMIT cites these. -/

namespace Sys2Proof.Machine

/-- Where the invariant holds ADVANCE answers a next state. -/
theorem State.advance_ok {u : State} (hi : u.Inv) (h : u.advanceEnabled = true) : ∃ t, u.advance = .next t := by
  obtain ⟨h1,h2,h3⟩ := State.advanceEnabled_facts h
  obtain ⟨k, hk, -⟩ := hi.busy_latch h1
  unfold State.advance
  split; exact ⟨_, rfl⟩
  have hw : ∀ f, ∃ t, u.withLatch f = .next t := fun f => ⟨f k, by simp [State.withLatch, hk]⟩
  split <;> first | exact hw _ | exact ⟨_, rfl⟩ | skip
  split <;> first | exact hw _ | exact ⟨_, rfl⟩

/-- ADVANCE does not write `err` (R96). -/
theorem State.advance_err {u t : State} (he : u.advanceEnabled = true) (h : u.advance = .next t) : t.err = u.err := by
  rcases State.advance_cases he h with ⟨_, rfl⟩ | ⟨_, ⟨_, k, _, rfl⟩ | ⟨_, k, b, p, _, _, rfl⟩ | ⟨_, k, _,
      rfl⟩ | ⟨_, k, _, rfl⟩ | ⟨_, rfl⟩ | ⟨_, rfl⟩ | ⟨_, rfl⟩⟩ <;>
  simp [State.advPending, State.advCtrl, State.advPayload, State.advVersion, State.advCode, State.advCrcHi,
      State.advCrcLo, State.advFlag]

/-- A byte in the slot belongs to a frame in progress (R32). -/
theorem State.phase_ne_idle_of_full {u : State} (hi : u.Inv) (h : u.outFull = true) : u.phase ≠ .idle := by
  intro hp; simpa [h] using (hi.idle_empty hp).1

/-- ADVANCE does not touch the configuration. -/
theorem State.advance_cfg {u t : State} (he : u.advanceEnabled = true) (h : u.advance = .next t) : t.cfg = u.cfg := by
  rcases State.advance_cases he h with ⟨_, rfl⟩ | ⟨_, ⟨_, k, _, rfl⟩ | ⟨_, k, b, p, _, _, rfl⟩ | ⟨_, k, _,
      rfl⟩ | ⟨_, k, _, rfl⟩ | ⟨_, rfl⟩ | ⟨_, rfl⟩ | ⟨_, rfl⟩⟩ <;>
  simp [State.advPending, State.advCtrl, State.advPayload, State.advVersion, State.advCode, State.advCrcHi,
      State.advCrcLo, State.advFlag]

/-- A length no check refuses lies in the bounds. -/
theorem admitsLen_of_lengthRefusal {c : Config} {l} (h : lengthRefusal c l = none) : c.admitsLen l = true := by
  unfold lengthRefusal at h; split at h <;> simp at h
  simp [Config.admitsLen]; omega

/-- `put_stuffed` leaves exactly the stuffing of its byte in the slot and the pending register (R73). -/
theorem State.slot_of_putStuffed (u : State) (b : Byte) (he : u.escPend = false) :
   (if (u.putStuffed b).outFull then [(u.putStuffed b).outByte] else []) ++ (if (u.putStuffed b).escPend then [(u.putStuffed b).escByte] else []) = stuffByte u.cfg.k b := by
  simp [stuffByte, he]; split <;> simp

/-- The wire bytes to come after a `put_stuffed`. -/
theorem State.wireToCome_put (u t : State) (b : Byte) (k q rest) (he : u.escPend = false)
    (h1 : t.outFull = (u.putStuffed b).outFull) (h2 : t.outByte = (u.putStuffed b).outByte)
  (h3 : t.escPend = (u.putStuffed b).escPend) (h4 : t.escByte = (u.putStuffed b).escByte) (hc : t.cfg = u.cfg)
  (h5 : t.phase ≠ .idle) (h6 : t.phase ≠ .drain) (hr : t.unstuffedToCome k q = rest) :
  t.wireToCome k q = stuff u.cfg.k (b :: rest) ++ [u.cfg.k.flag] := by
  unfold State.wireToCome
  rw [h1,h2,h3,h4,hc,hr, State.slot_of_putStuffed u b he, stuff_cons]
  simp [h5, h6]

/-- The wire bytes to come with nothing in the slot and nothing pending. -/
theorem State.wireToCome_empty {u : State} {k q} (hf : u.outFull = false) (he : u.escPend = false)
    (h5 : u.phase ≠ .idle) (h6 : u.phase ≠ .drain) :
  u.wireToCome k q = stuff u.cfg.k (u.unstuffedToCome k q) ++ [u.cfg.k.flag] := by
  simp [State.wireToCome, hf, he, h5, h6]

/-- A body byte, then the frame closed from the CRC that has absorbed it. -/
theorem closeFrame_cons (k x b body) : closeFrame k x (b :: body) = b :: closeFrame k (crcStep k x b) body := rfl

theorem State.advPayload_phase (u : State) (k : Latch) (b : Byte) :
    (u.advPayload k b).phase ≠ .idle ∧ (u.advPayload k b).phase ≠ .drain := by
  simp only [State.advPayload, State.record_phase]
  split <;> simp

/-- ADVANCE keeps the wire bytes to come, and reads the payload bytes it says it read. -/
theorem State.advance_wire {u t : State} (hi : u.Inv) (he : u.advanceEnabled = true) (h : u.advance = .next t) :
   ∃ pays, t.history = u.history ++ pays.map .pay ∧ t.latch = u.latch ∧ t.phase ≠ .idle ∧ t.outFull = true ∧
     u.payloadDue = pays.length + t.payloadDue ∧ u.env.payload = pays ++ t.env.payload ∧
     ∀ k q, u.latch = some k → q.length = t.payloadDue → t.wireToCome k q = u.wireToCome k (pays ++ q) := by
  obtain ⟨h1,h2,h3⟩ := State.advanceEnabled_facts he
  obtain ⟨k, hk, hkd⟩ := hi.busy_latch h1
  rcases State.advance_cases he h with ⟨ep, rfl⟩ | ⟨ep, ⟨hp, k', hk', rfl⟩ | ⟨hp, k', b, p, hk', hq, rfl⟩ | ⟨hp,
      k', hk', rfl⟩ | ⟨hp, k', hk', rfl⟩ | ⟨hp, rfl⟩ | ⟨hp, rfl⟩ | ⟨hp, rfl⟩⟩
  · refine ⟨[], by simp [State.advPending], by simp [State.advPending], by simp [State.advPending, h1],
      by simp [State.advPending], ?_, by simp [State.advPending], ?_⟩
    · simp [State.payloadDue, State.advPending]
    · intro k q hk hl
      have : (u.advPending).unstuffedToCome k q = u.unstuffedToCome k q := rfl
      simp only [State.wireToCome, this]
      simp [State.advPending, h3, ep]; rfl
  · obtain rfl : k = k' := by simpa [hk] using hk'
    have hs : succCtrl k ≠ .idle ∧ succCtrl k ≠ .drain ∧ succCtrl k ≠ .ctrl := by
      unfold succCtrl; split <;> (try split) <;> simp
    have hix := hi.ctrl_idx hp
    refine ⟨[], by simp [State.advCtrl], by simp [State.advCtrl], by simp [State.advCtrl, hs],
        by simp [State.advCtrl], ?_, by simp [State.advCtrl], ?_⟩
    · simp only [State.payloadDue, State.advCtrl, hk, hp, State.putStuffed_latch, State.absorb_latch,
        State.putStuffed_idx, State.absorb_idx, hix]
      unfold payloadNeed succCtrl
      cases hkk : k.kind <;> simp
      by_cases hz : k.len = 0#8 <;> simp [hz]
    · intro k'' q hk'' hl
      obtain rfl : k = k'' := by simpa [hk] using hk''
      rw [State.wireToCome_empty h3 ep h1 h2]
      rw [State.wireToCome_put (u.absorb (ctrlByte k)) (u.advCtrl k)
          (ctrlByte k) k q _ (by simpa using ep) rfl rfl rfl rfl (by simp [State.advCtrl]) (by simp [State.advCtrl,
          hs]) (by simp [State.advCtrl, hs]) rfl]
      simp only [State.absorb_cfg, List.nil_append]
      congr 2
      simp only [State.payloadDue, State.advCtrl, hk, State.putStuffed_latch, State.absorb_latch,
          State.putStuffed_idx, State.absorb_idx, hix, succCtrl] at hl
      simp only [State.unstuffedToCome, hp, State.advCtrl, succCtrl, State.putStuffed_cfg, State.absorb_cfg,
          State.putStuffed_crc, State.absorb_crc, State.putStuffed_lfsr, State.absorb_lfsr]
      cases hkk : k.kind <;> simp only [hkk] at hl ⊢ <;> simp only [closeFrame_cons]
      by_cases hz : k.len = 0
      · simp [hz] at hl; subst hl; simp [hz]
      · have hz' : ¬ k.len = 0#8 := hz
        simp [hz']
  · obtain rfl : k = k' := by simpa [hk] using hk'
    obtain ⟨k'', hk'', hd, hlt⟩ := hi.payload_data hp
    obtain rfl : k = k'' := by simpa [hk] using hk''
    have hix : (u.idx + 1).toNat = u.idx.toNat + 1 := by
      have := k.len.isLt
      rw [BitVec.toNat_add]; simp; omega
    have hdue : (u.advPayload k b).payloadDue = k.len.toNat - (u.idx.toNat + 1) := by
      simp only [State.payloadDue, State.advPayload, State.record_latch, State.record_phase, State.record_idx,
          State.dropPayload_latch, State.putStuffed_latch, State.absorb_latch, hk]
      by_cases hz : u.idx.toNat + 1 = k.len.toNat
      · simp only [hz, if_true]; omega
      · simp only [hz, if_false, hix]
    refine ⟨[b], by simp [State.advPayload], by simp [State.advPayload], (u.advPayload_phase k b).1,
        by simp [State.advPayload], ?_, by simp [State.advPayload, hq], ?_⟩
    · rw [hdue]; simp only [State.payloadDue, hk, hp]; simp; omega
    · intro k'' q hk'' hl
      obtain rfl : k = k'' := by simpa [hk] using hk''
      rw [State.wireToCome_empty h3 ep h1 h2]
      rw [State.wireToCome_put (u.absorb (b ^^^ u.lfsr)) (u.advPayload k b)
          (b ^^^ u.lfsr) k q _ (by simpa using ep) rfl rfl rfl rfl (by simp [State.advPayload])
          (u.advPayload_phase k b).1 (u.advPayload_phase k b).2 rfl]
      simp only [State.absorb_cfg]
      congr 2
      rw [hdue] at hl
      simp only [State.unstuffedToCome, hp, State.advPayload, State.record_phase, State.record_cfg,
          State.record_crc, State.record_lfsr, State.dropPayload_cfg, State.dropPayload_crc, State.putStuffed_cfg,
          State.absorb_cfg, State.putStuffed_crc, State.absorb_crc, List.cons_append, List.nil_append,
          randomizeFrom_cons, closeFrame_cons]
      by_cases hz : u.idx.toNat + 1 = k.len.toNat
      · simp only [hz, if_true]
        have : q = [] := by apply List.length_eq_zero_iff.1; omega
        subst this; rfl
      · simp only [hz, if_false]
  · obtain rfl : k = k' := by simpa [hk] using hk'
    refine ⟨[], by simp [State.advVersion], by simp [State.advVersion], by simp [State.advVersion],
        by simp [State.advVersion], by simp [State.payloadDue, State.advVersion, hk, hp],
        by simp [State.advVersion], ?_⟩
    intro k'' q hk'' hl
    obtain rfl : k = k'' := by simpa [hk] using hk''
    rw [State.wireToCome_empty h3 ep h1 h2]
    rw [State.wireToCome_put (u.absorb k.ver)
        (u.advVersion k) k.ver k q _ (by simpa using ep) rfl rfl rfl rfl (by simp [State.advVersion])
        (by simp [State.advVersion]) (by simp [State.advVersion]) rfl]
    simp [State.unstuffedToCome, hp, State.advVersion, closeFrame_cons]
  · obtain rfl : k = k' := by simpa [hk] using hk'
    refine ⟨[], by simp [State.advCode], by simp [State.advCode], by simp [State.advCode], by simp [State.advCode],
        by simp [State.payloadDue, State.advCode, hk, hp], by simp [State.advCode], ?_⟩
    intro k'' q hk'' hl
    obtain rfl : k = k'' := by simpa [hk] using hk''
    rw [State.wireToCome_empty h3 ep h1 h2]
    rw [State.wireToCome_put (u.absorb k.code)
        (u.advCode k) k.code k q _ (by simpa using ep) rfl rfl rfl rfl (by simp [State.advCode])
        (by simp [State.advCode]) (by simp [State.advCode]) rfl]
    simp [State.unstuffedToCome, hp, State.advCode, closeFrame_cons]
  · refine ⟨[], by simp [State.advCrcHi], by simp [State.advCrcHi], by simp [State.advCrcHi],
      by simp [State.advCrcHi], by simp [State.payloadDue, State.advCrcHi, hk, hp], by simp [State.advCrcHi], ?_⟩
    intro k'' q hk'' hl
    rw [State.wireToCome_empty h3 ep h1 h2]
    rw [State.wireToCome_put u (u.advCrcHi) (crcHigh u.crc) k'' q _ ep rfl rfl rfl rfl (by simp [State.advCrcHi])
        (by simp [State.advCrcHi]) (by simp [State.advCrcHi]) rfl]
    simp [State.unstuffedToCome, hp, State.advCrcHi, closeFrame, crcBytes]
  · refine ⟨[], by simp [State.advCrcLo], by simp [State.advCrcLo], by simp [State.advCrcLo],
      by simp [State.advCrcLo], by simp [State.payloadDue, State.advCrcLo, hk, hp], by simp [State.advCrcLo], ?_⟩
    intro k'' q hk'' hl
    rw [State.wireToCome_empty h3 ep h1 h2]
    rw [State.wireToCome_put u (u.advCrcLo) (crcLow u.crc) k'' q _ ep rfl rfl rfl rfl (by simp [State.advCrcLo])
        (by simp [State.advCrcLo]) (by simp [State.advCrcLo]) rfl]
    simp [State.unstuffedToCome, hp, State.advCrcLo]
  · refine ⟨[], by simp [State.advFlag], by simp [State.advFlag], by simp [State.advFlag], by simp [State.advFlag],
      by simp [State.payloadDue, State.advFlag, hk, hp], by simp [State.advFlag], ?_⟩
    intro k'' q hk'' hl
    rw [State.wireToCome_empty h3 ep h1 h2]
    simp [State.unstuffedToCome, hp, State.advFlag, State.wireToCome, ep]

/-- `Encode` of a descriptor that is not refused. -/
theorem encodeFrame_of_accepted {c : Config} {d i} (hd : decode d = .ok i) (hr : acceptRefusal c i = none)
    (p) : encodeFrame c d p = .ok (wireFrame c (latchOf i) p) := by
  simp [encodeFrame, hd, hr]

/-- At the start of a frame, all of `Encode` is to come. -/
theorem State.wireToCome_start {t : State} {k : Latch} {q} (hp : t.phase = .ctrl) (hc : t.crc = t.cfg.k.crcInit)
    (hl : t.lfsr = t.cfg.k.lfsrSeed) (hf : t.outFull = false) (he : t.escPend = false)  :
  t.wireToCome k q = wireFrame t.cfg k q := by
  rw [State.wireToCome_empty hf he (by simp [hp]) (by simp [hp])]
  unfold wireFrame unstuffedFrame frameBody State.unstuffedToCome closeFrame crc16 randomize
  simp only [hp, hc, hl]
  cases k.kind <;> rfl

/-- EMIT takes the first of the wire bytes to come. -/
theorem State.emit_wire {u : State} {k q} (hf : u.outFull = true)
    (hi : u.Inv) : u.wireToCome k q = u.outByte :: u.emit.wireToCome k q := by
  by_cases hL : u.outLast = true
  · have hp := hi.last_drain hL hf
    have : u.escPend = false := by
        cases hx : u.escPend with
        | false => rfl
        | true => exact absurd hp (hi.pend_escape hx).2.2
    simp [State.wireToCome, hf, hL, hp, this, State.unstuffedToCome]
  · have hL : u.outLast = false := by simpa using hL
    simp only [State.wireToCome, State.emit_outFull, State.emit_escPend, State.emit_escByte, State.emit_phase, hL, hf]
    have : u.emit.unstuffedToCome k q = u.unstuffedToCome k q := by
      simp only [State.unstuffedToCome, State.emit_phase, hL]; rfl
    simp [this]; rfl

/-- EMIT reads no payload byte. -/
theorem State.emit_payloadDue {u : State} (hL : u.outLast = false) : u.emit.payloadDue = u.payloadDue := by
  simp [State.payloadDue, hL]

/-- A pending byte is the escaped form of a reserved one. -/
theorem State.putStuffed_pending {u : State} {b : Byte} (he : u.escPend = false)  : (u.putStuffed b).escPend = true → ∃ x, isReserved u.cfg.k x = true ∧ (u.putStuffed b).escByte = escaped u.cfg.k x := by
  simp [he]
  intro h; exact ⟨b, h, by simp [h]⟩

/-- ADVANCE keeps the invariant. -/
theorem State.advance_inv {u t : State} (hi : u.Inv) (he : u.advanceEnabled = true)
    (h : u.advance = .next t) : t.Inv := by
  obtain ⟨h1,h2,h3⟩ := State.advanceEnabled_facts he
  obtain ⟨k0, hk0, hkd⟩ := hi.busy_latch h1
  rcases State.advance_cases he h with ⟨e, rfl⟩ | ⟨e, ⟨hp, k, hk, rfl⟩ | ⟨hp, k, b, p, hk, _, rfl⟩ | ⟨hp, k, hk,
      rfl⟩ | ⟨hp, k, hk, rfl⟩ | ⟨hp, rfl⟩ | ⟨hp, rfl⟩ | ⟨hp, rfl⟩⟩
  · refine ⟨?_,?_,?_,?_,?_,?_,?_,?_⟩ <;> simp only [State.advPending, State.outPut_phase, State.outPut_cfg,
      State.outPut_latch, State.outPut_idx]
    · intro h; exact absurd h h1
    · intro h; exact absurd h h2
    · simp
    · simp
    · exact hi.payload_data
    · exact hi.body_kind
    · exact hi.busy_latch
    · exact hi.ctrl_idx
  · have hki : k0 = k := by rw [hk0] at hk; simpa using hk
    subst hki
    have hs : succCtrl k0 ≠ .idle ∧ succCtrl k0 ≠ .drain ∧ succCtrl k0 ≠ .ctrl := by
      unfold succCtrl; split <;> (try split) <;> simp
    refine ⟨?_,?_,?_,?_,?_,?_,?_,?_⟩ <;> simp only [State.advCtrl, State.putStuffed_cfg, State.absorb_cfg,
        State.putStuffed_latch, State.absorb_latch, State.putStuffed_idx, State.absorb_idx]
    · intro h; exact absurd h hs.1
    · intro h; exact absurd h hs.2.1
    · simp
    · intro hh; exact ⟨State.putStuffed_pending (by simpa using e) hh, hs.1, hs.2.1⟩
    · intro h; refine ⟨k0, hk0, ?_⟩
      unfold succCtrl at h; split at h <;> simp at h
      rename_i hd; refine ⟨hd, ?_⟩; rw [hi.ctrl_idx hp]
      have : k0.len.toNat ≠ 0 := fun hz => h (BitVec.eq_of_toNat_eq hz)
      simp; omega
    · intro h; refine ⟨k0, hk0, ?_⟩
      unfold succCtrl at h; split at h <;> (try split at h) <;> simp_all
    · intro _; exact ⟨k0, hk0, hkd⟩
    · intro h; exact absurd h hs.2.2
  · have hki : k0 = k := by rw [hk0] at hk; simpa using hk
    subst hki
    obtain ⟨k', hk', hd, hlt⟩ := hi.payload_data hp
    have hki : k0 = k' := by rw [hk0] at hk'; simpa using hk'
    subst hki
    refine ⟨?_,?_,?_,?_,?_,?_,?_,?_⟩ <;> simp only [State.advPayload, State.record_cfg, State.record_phase,
        State.record_outFull, State.record_outLast, State.record_escPend, State.record_escByte, State.record_idx,
        State.record_latch, State.dropPayload_cfg, State.dropPayload_latch, State.putStuffed_cfg, State.absorb_cfg,
        State.putStuffed_latch, State.absorb_latch, State.dropPayload_outFull, State.dropPayload_outLast,
        State.dropPayload_escPend, State.dropPayload_escByte]
    · split <;> simp
    · split <;> simp
    · simp
    · intro hh; exact ⟨State.putStuffed_pending (by simpa using e) hh, by split <;> simp, by split <;> simp⟩
    · split; simp
      intro _; refine ⟨k0, hk0, hd, ?_⟩
      have := k0.len.isLt
      rw [BitVec.toNat_add]; simp; omega
    · split <;> simp
    · intro _; exact ⟨k0, hk0, hkd⟩
    · split <;> simp
  · have hki : k0 = k := by rw [hk0] at hk; simpa using hk
    subst hki
    refine ⟨?_,?_,?_,?_,?_,?_,?_,?_⟩ <;> simp only [State.advVersion, State.putStuffed_cfg, State.absorb_cfg,
        State.putStuffed_latch, State.absorb_latch, State.putStuffed_idx, State.absorb_idx]
    · simp
    · simp
    · simp
    · intro hh; exact ⟨State.putStuffed_pending (by simpa using e) hh, by simp, by simp⟩
    · simp
    · intro _; exact hi.body_kind (.inl hp)
    · intro _; exact ⟨k0, hk0, hkd⟩
    · simp
  · refine ⟨?_,?_,?_,?_,?_,?_,?_,?_⟩ <;> simp only [State.advCode, State.putStuffed_cfg, State.absorb_cfg,
      State.putStuffed_latch, State.absorb_latch, State.putStuffed_idx, State.absorb_idx]
    · simp
    · simp
    · simp
    · intro hh; exact ⟨State.putStuffed_pending (by simpa using e) hh, by simp, by simp⟩
    · simp
    · simp
    · intro _; exact ⟨k0, hk0, hkd⟩
    · simp
  · refine ⟨?_,?_,?_,?_,?_,?_,?_,?_⟩ <;> simp only [State.advCrcHi, State.putStuffed_cfg, State.putStuffed_latch,
      State.putStuffed_idx]
    · simp
    · simp
    · simp
    · intro hh; exact ⟨State.putStuffed_pending (by simpa using e) hh, by simp, by simp⟩
    · simp
    · simp
    · intro _; exact ⟨k0, hk0, hkd⟩
    · simp
  · refine ⟨?_,?_,?_,?_,?_,?_,?_,?_⟩ <;> simp only [State.advCrcLo, State.putStuffed_cfg, State.putStuffed_latch,
      State.putStuffed_idx]
    · simp
    · simp
    · simp
    · intro hh; exact ⟨State.putStuffed_pending (by simpa using e) hh, by simp, by simp⟩
    · simp
    · simp
    · intro _; exact ⟨k0, hk0, hkd⟩
    · simp
  · refine ⟨?_,?_,?_,?_,?_,?_,?_,?_⟩ <;> simp only [State.advFlag, State.outPut_cfg, State.outPut_latch,
      State.outPut_idx, State.outPut_outFull, State.outPut_outLast, State.outPut_outByte, State.outPut_escPend, e]
    · simp
    · simp
    · simp
    · simp
    · simp
    · simp
    · intro _; exact ⟨k0, hk0, hkd⟩
    · simp

end Sys2Proof.Machine
end

