-- ==== Sys2Proof/Laws/Execution.lean ====
section
/-! SUPPORT. Executions and their premises: what every step of one keeps, which step a live block takes, the counts of
a growing history, and that aligned offers of payload bytes are stable ones. -/

namespace Sys2Proof.Machine

/-! ### `withScript`: it changes the environment's script only -/

section
variable (s : State) (ms : List Move)

@[simp] theorem State.withScript_cfg : (s.withScript ms).cfg = s.cfg := rfl
@[simp] theorem State.withScript_resetSeen : (s.withScript ms).resetSeen = s.resetSeen := rfl
@[simp] theorem State.withScript_phase : (s.withScript ms).phase = s.phase := rfl
@[simp] theorem State.withScript_idx : (s.withScript ms).idx = s.idx := rfl
@[simp] theorem State.withScript_latch : (s.withScript ms).latch = s.latch := rfl
@[simp] theorem State.withScript_crc : (s.withScript ms).crc = s.crc := rfl
@[simp] theorem State.withScript_lfsr : (s.withScript ms).lfsr = s.lfsr := rfl
@[simp] theorem State.withScript_escPend : (s.withScript ms).escPend = s.escPend := rfl
@[simp] theorem State.withScript_escByte : (s.withScript ms).escByte = s.escByte := rfl
@[simp] theorem State.withScript_outFull : (s.withScript ms).outFull = s.outFull := rfl
@[simp] theorem State.withScript_outByte : (s.withScript ms).outByte = s.outByte := rfl
@[simp] theorem State.withScript_outLast : (s.withScript ms).outLast = s.outLast := rfl
@[simp] theorem State.withScript_err : (s.withScript ms).err = s.err := rfl
@[simp] theorem State.withScript_history : (s.withScript ms).history = s.history := rfl
@[simp] theorem State.withScript_env : (s.withScript ms).env = { s.env with script := ms } := rfl

end

/-! ### The counts over a growing history -/

theorem framesBegun_append (es fs : List Event) : framesBegun (es ++ fs) = framesBegun es + framesBegun fs :=
  List.countP_append

theorem bytesRead_append (es fs : List Event) : bytesRead (es ++ fs) = fs.foldl Event.countRead (bytesRead es) :=
  List.foldl_append

/-- A byte the sink takes moves neither count. -/
theorem counts_after_out (es : List Event) (b : Byte) (l : Bool) (fs : List Event) (hf : fs = [] ∨ fs = [.done]) :
    framesBegun (es ++ .out b l :: fs) = framesBegun es ∧ bytesRead (es ++ .out b l :: fs) = bytesRead es := by
  rcases hf with rfl | rfl <;>
    simp [framesBegun, bytesRead, Event.isAccept, Event.countRead]

/-! ### Which step is taken -/

theorem stepsTaken_add (x : Nat → State) (m a b : Nat) :
    stepsTaken x m (a + b) = stepsTaken x m a ++ stepsTaken x (m + a) b := by
  simp only [stepsTaken, ← List.range'_append_1, List.map_append, List.filter_append]

theorem stepsTaken_one (x : Nat → State) (m : Nat) :
    stepsTaken x m 1 = if (x m).drive.stepKind = .wait then [] else [(x m).drive.stepKind] := by
  by_cases h : (x m).drive.stepKind = .wait <;> simp [stepsTaken, h]

/-- Inside a frame, with reset and abort released, the step is EMIT, ADVANCE or none (R100). -/
theorem State.stepKind_inside {u : State} (hl : u.Live) (hp : u.phase ≠ .idle) :
    u.stepKind = if u.emitEnabled then .emit else if u.advanceEnabled then .advance else .wait := by
  have ha : u.acceptEnabled = false := by
    cases h : u.acceptEnabled with
    | false => rfl
    | true => exact absurd (State.acceptEnabled_facts h).1 hp
  simp [State.stepKind, hl.2.2.1, hl.2.2.2, ha]

/-! ### What every step keeps -/

/-- No step touches the configuration (R8), and reset once seen stays seen. -/
theorem State.act_keeps {u t : State} (h : u.act = .next t) :
    t.cfg = u.cfg ∧ (u.resetSeen = true → t.resetSeen = true) := by
  cases State.stepCase h with
  | advance hl ha he hv e =>
    refine ⟨State.advance_cfg hv e, fun hs => ?_⟩
    rcases State.advance_cases hv e with ⟨_, rfl⟩ | ⟨_, ⟨_, k, _, rfl⟩ | ⟨_, k, b, p, _, _, rfl⟩ | ⟨_, k, _, rfl⟩ |
        ⟨_, k, _, rfl⟩ | ⟨_, rfl⟩ | ⟨_, rfl⟩ | ⟨_, rfl⟩⟩ <;>
      simp [State.advPending, State.advCtrl, State.advPayload, State.advVersion, State.advCode, State.advCrcHi,
        State.advCrcLo, State.advFlag, hs]
  | _ => rename_i e; subst e; exact ⟨rfl, fun hs => by simpa using hs⟩

/-- The configuration is fixed in an execution. -/
theorem Execution.cfg {x : Nat → State} (hx : Execution x) (n : Nat) : (x n).cfg = (x 0).cfg := by
  induction n with
  | zero => rfl
  | succ n ih =>
    obtain ⟨t, h, e⟩ := hx n
    rw [e, State.withScript_cfg, (State.act_keeps h).1, State.drive_cfg, ih]

/-- The first step of an execution is a reset step, if `rst` is asserted and the configuration is in bounds. -/
theorem Execution.first {x : Nat → State} (hx : Execution x) (hr : ResetFirst x) (hc : ConfigOk x) :
    x 1 = (x 0).drive.resetStep.withScript (x 1).env.script := by
  obtain ⟨t, h, e⟩ := hx 0
  have hr' : (x 0).drive.env.pins.rst = true := hr
  have hc' : (x 0).drive.cfg.ok = true := hc
  rw [step_eq_act, State.act, hc', hr'] at h
  simp only [Bool.not_true, Bool.false_eq_true, if_false, if_true, Host.Outcome.next.injEq] at h
  rw [h]
  exact e

/-- After its first step an execution that meets the launch premises is live (R118). -/
theorem LaunchPremises.live {x : Nat → State} {want : Nat → List Byte} (hx : Execution x)
    (hp : LaunchPremises x want) (n : Nat) : (x (n + 1)).drive.Live := by
  refine ⟨by rw [State.drive_cfg, hx.cfg]; exact hp.config_ok, ?_, hp.no_reset_after_first n, hp.no_abort _⟩
  rw [State.drive_resetSeen]
  induction n with
  | zero => rw [Execution.first hx hp.reset_first hp.config_ok]; rfl
  | succ n ih =>
    obtain ⟨t, h, e⟩ := hx (n + 1)
    rw [e]
    exact (State.act_keeps h).2 ih

/-! ### Aligned offers are stable -/

/-- With `payload_aligned` the payload source keeps an offered byte until it is taken (R109, R117): the next byte of
the frame's own stays the same while none is read. -/
theorem PayloadAligned.stable {x : Nat → State} {want : Nat → List Byte} (hx : Execution x) (hr : ResetFirst x)
    (hc : ConfigOk x) (ha : PayloadAligned x want) : PayloadStable x := by
  intro n hv hnt hv'
  have hph := ha.none_outside n hv'
  have h1 := ha.in_order n hv'
  cases n with
  | zero => exact absurd (by rw [Execution.first hx hr hc]; rfl) hph
  | succ n =>
    have hb := ha.none_outside n hv
    have h0 := ha.in_order n hv
    obtain ⟨t, h, e⟩ := hx (n + 1)
    have same : t.phase ≠ .idle → framesBegun t.history = framesBegun (x (n + 1)).history ∧
        bytesRead t.history = bytesRead (x (n + 1)).history := by
      intro ht
      cases State.stepCase h with
      | reset _ e => subst e; exact absurd rfl ht
      | abortIdle _ _ hp e => exact absurd hp hb
      | abort _ _ _ e => subst e; exact absurd rfl ht
      | start _ hk _ _ _ _ _ _ _ => exact absurd (State.acceptEnabled_facts hk).1 hb
      | refuse _ hk _ _ _ _ _ _ => exact absurd (State.acceptEnabled_facts hk).1 hb
      | emit _ _ _ e =>
        subst e
        exact counts_after_out _ _ _ _ (by cases (x (n + 1)).drive.outLast <;> simp)
      | advance hl _ _ hk e =>
        obtain ⟨-, -, hf⟩ := State.advanceEnabled_facts hk
        rcases State.advance_cases hk e with ⟨_, rfl⟩ | ⟨he, ⟨_, k, _, rfl⟩ | ⟨hp, k, b, p, _, _, rfl⟩ |
            ⟨_, k, _, rfl⟩ | ⟨_, k, _, rfl⟩ | ⟨_, rfl⟩ | ⟨_, rfl⟩ | ⟨_, rfl⟩⟩
        case inr.inr.inl =>
          have : (x (n + 1)).drive.payloadTaken = true := by
            simp only [State.payloadTaken, State.plReady, hp, hf, he, hv, hl.2.2.1, hl.2.2.2]
            rfl
          rw [hnt] at this
          exact absurd this (by simp)
        all_goals
          simp [State.advPending, State.advCtrl, State.advVersion, State.advCode, State.advCrcHi, State.advCrcLo,
            State.advFlag]
      | wait _ _ _ _ e => subst e; exact ⟨rfl, rfl⟩
    rw [e, State.withScript_phase] at hph
    obtain ⟨hs1, hs2⟩ := same hph
    have hh : (x (n + 1 + 1)).history = t.history := by rw [e]; rfl
    rw [h1, h0, hh, hs1, hs2]

end Sys2Proof.Machine
end

