-- ==== Sys2Proof/Laws/PerInstr.lean ====
section
/-! SUPPORT. Facts about every command, one lemma per constructor. -/

namespace Sys2Proof

/-- The low three bits of a packed descriptor are its `KIND` (R47). -/
theorem descKind_packDesc (k : BitVec 3) (f : Fields) : descKind (packDesc k f) = k := by
  unfold descKind packDesc
  apply BitVec.eq_of_getLsbD_eq
  intro i hi
  simp only [BitVec.getLsbD_extractLsb', BitVec.getLsbD_append, Nat.zero_add, hi, decide_true, Bool.true_and,
    if_true]

namespace Laws.EncodeKind

/-- A command's descriptor carries the command's kind in its `KIND` bits, whatever its other fields hold, and no
command's `KIND` is one of the two illegal values (R47, R48). -/
def Statement (i : Instr) : Prop :=
  descKind (encode i) = i.kind.toCode ∧ descKind (encode i) ≠ 6 ∧ descKind (encode i) ≠ 7

theorem data (f : Fields) : Statement (.data f) := by
  simp [Statement, encode, descKind_packDesc, Instr.kind, FrameKind.toCode]

theorem ack (f : Fields) : Statement (.ack f) := by
  simp [Statement, encode, descKind_packDesc, Instr.kind, FrameKind.toCode]

theorem nak (f : Fields) : Statement (.nak f) := by
  simp [Statement, encode, descKind_packDesc, Instr.kind, FrameKind.toCode]

theorem rst (f : Fields) : Statement (.rst f) := by
  simp [Statement, encode, descKind_packDesc, Instr.kind, FrameKind.toCode]

theorem rstack (f : Fields) : Statement (.rstack f) := by
  simp [Statement, encode, descKind_packDesc, Instr.kind, FrameKind.toCode]

theorem error (f : Fields) : Statement (.error f) := by
  simp [Statement, encode, descKind_packDesc, Instr.kind, FrameKind.toCode]

end Laws.EncodeKind

end Sys2Proof
end

