-- ==== Sys2Proof/Laws/Run.lean ====
section
/-! SUPPORT. Runs of the host's interface, one step and two stretches at a time. -/

namespace Sys2Proof.Machine

/-- With the environment's script empty the ports keep their levels. -/
theorem State.drive_of_no_script {s : State} (h : s.env.script = []) : s.drive = s := by
  cases s
  simp_all [State.drive, Env.drive]

theorem run_succ {n : Nat} {s t : State} (h : step s = .next t) :
    Host.Core.run core (n + 1) s = Host.Core.run core n t := by
  simp only [Host.Core.run]
  rw [show core.step s = .next t from h]

theorem run_add {m n : Nat} {s t : State} (h : Host.Core.run core m s = .next t) :
    Host.Core.run core (m + n) s = Host.Core.run core n t := by
  induction m generalizing s with
  | zero =>
    injection h with h
    subst h
    simp
  | succ m ih =>
    rw [show m + 1 + n = (m + n) + 1 by omega]
    simp only [Host.Core.run] at h ⊢
    cases hst : core.step s with
    | next s' => rw [hst] at h; exact ih h
    | fault r => rw [hst] at h; simp at h
    | refused r => rw [hst] at h; simp at h

end Sys2Proof.Machine
end

