-- ==== Sys2Proof/Tests/Slice0.lean ====
section
/-! SUPPORT. Tests of one step or one function each; expected values are those of spec/95_test_vectors.md (the vector
is named) or written out from R47.  Then, for every statement with hypotheses, a state that meets them. -/

namespace Sys2Proof.Tests

open Sys2Proof Sys2Proof.Machine

/-! ### Well-formedness and decoding -/

/-- Too short, too long: refused; both bounds: admitted (V-F1, V-F3, V-D16, V-D15). -/
theorem test_wellFormed_data_bounds :
    Instr.wellFormed .default (.data { Fields.zero with len := 2 }) = false ∧
    Instr.wellFormed .default (.data { Fields.zero with len := 129 }) = false ∧
    Instr.wellFormed .default (.data { Fields.zero with len := 3 }) = true ∧
    Instr.wellFormed .default (.data { Fields.zero with len := 128 }) = true := by decide

/-- The length of any other command is not checked (V-A17). -/
theorem test_wellFormed_ack_any_length :
    Instr.wellFormed .default (.ack { Fields.zero with len := 200 }) = true := by decide

/-- Configurations out of bounds (R8, R108), and both ends in bounds. -/
theorem test_config_bounds :
    Config.ok .default = true ∧ Config.ok { Config.default with minDataPayload := 129 } = false ∧
    Config.ok { Config.default with maxDataPayload := 256 } = false ∧
    Config.ok { Config.default with minDataPayload := 0, maxDataPayload := 0 } = false ∧
    Config.ok { Config.default with minDataPayload := 0, maxDataPayload := 255 } = true := by decide

/-- `DATA frm=5 ack=3 retx nrdy`, reserved bits 10101, LEN 0x81, VER 0x5A, CODE 0xC3, bit by bit from R47. -/
theorem test_decode_data :
    decode 0b11000011_01011010_10000001_10101_1_1_011_101_000 = .ok (.data
      { frm := 5, ack := 3, retx := true, nrdy := true, rsvd := 0b10101, len := 0x81, ver := 0x5A, code := 0xC3 }) :=
  by rfl

theorem test_decode_ack :
    decode 0b00000000_00000000_00000000_00000_1_0_011_000_001 = .ok (.ack
      { Fields.zero with ack := 3, nrdy := true }) := by rfl

theorem test_decode_nak :
    decode 0b00000000_00000000_00000000_00000_0_0_110_000_010 = .ok (.nak { Fields.zero with ack := 6 }) := by rfl

theorem test_decode_rst :
    decode 0b00000000_00000000_00000000_00000_0_0_000_000_011 = .ok (.rst Fields.zero) := by rfl

theorem test_decode_rstack :
    decode 0b00001011_00000010_00000000_00000_0_0_000_000_100 = .ok (.rstack
      { Fields.zero with ver := 0x02, code := 0x0B }) := by rfl

theorem test_decode_error :
    decode 0b01010001_00000010_00000000_00000_0_0_000_000_101 = .ok (.error
      { Fields.zero with ver := 0x02, code := 0x51 }) := by rfl

/-- `KIND` 6 and 7 (V-F5, V-F6). -/
theorem test_decode_illegal :
    decode 0x0000000006 = .error .illegalKind ∧ decode 0x0000C80007 = .error .illegalKind := ⟨rfl, rfl⟩

/-- The table's bits, and a word with bits beyond the table's. -/
theorem test_decodeTableWord :
    decodeTableWord 40 0x00000004C1 = some (.ack { Fields.zero with ack := 3, nrdy := true }) ∧
    decodeTableWord 3 0xFB = some (.rst Fields.zero) ∧ decodeTableWord 40 0x7 = none := ⟨rfl, rfl, rfl⟩

/-! ### Frames (spec/95_test_vectors.md) -/

theorem test_frame_data_stuffed :
    (encodeFrame .default 0x0000030048 [0x01, 0x02, 0x03]).toOption =
      some [0x7D, 0x31, 0x43, 0x23, 0xAB, 0xFA, 0x7D, 0x3A, 0x7E] := by decide +kernel

/-- V-A12 -/
theorem test_frame_ack :
    (encodeFrame .default 0x00000004C1 []).toOption = some [0x8B, 0xC1, 0x7D, 0x33, 0x7E] := by decide +kernel

/-- V-N1 -/
theorem test_frame_nak :
    (encodeFrame .default 0x0000000002 []).toOption = some [0xA0, 0x54, 0x7D, 0x3A, 0x7E] := by decide +kernel

/-- V-R2 -/
theorem test_frame_rst :
    (encodeFrame .default 0xFFFFFFFFFB []).toOption = some [0xC0, 0x38, 0xBC, 0x7E] := by decide +kernel

/-- V-K5 -/
theorem test_frame_rstack :
    (encodeFrame .default 0x0102000004 []).toOption = some [0xC1, 0x02, 0x01, 0xAB, 0x7D, 0x38, 0x7E] :=
  by decide +kernel

/-- V-E3 -/
theorem test_frame_error :
    (encodeFrame .default 0x1311000005 []).toOption = some [0xC2, 0x7D, 0x31, 0x7D, 0x33, 0x96, 0x1B, 0x7E] :=
  by decide +kernel

/-- V-D21, with `P_MIN_DATA_PAYLOAD = 0` -/
theorem test_frame_data_empty :
    (encodeFrame { Config.default with minDataPayload := 0 } 0 []).toOption = some [0x00, 0xE1, 0xF0, 0x7E] :=
  by decide +kernel

/-- A frame and its inverse (R80), V-D3. -/
theorem test_unframe :
    unframe .ashv2 [0x7D, 0x31, 0x43, 0x23, 0xAB, 0xFA, 0x7D, 0x3A, 0x7E] =
      some (.data 1 false 1 [0x01, 0x02, 0x03]) := by decide +kernel

/-! ### Steps -/

/-- A block after reset with a command and payload bytes on offer. -/
def offering (d : Desc) (p : List Byte) : State :=
  { State.reset with env := { Env.quiet with cmds := [d], payload := p } }

/-- A descriptor of each kind: DATA frm=0 ack=0 with three bytes, and V-A12, V-N7, V-R1, V-K1, V-E1. -/
def sample : FrameKind → Desc
  | .data => 0x0000030000
  | .ack => 0x00000004C1
  | .nak => 0x0000000182
  | .rst => 0x0000000003
  | .rstack => 0x0202000004
  | .error => 0x5102000005

/-- A block inside the frame of `sample`, with `i` payload bytes read and three on offer. -/
def inside (k : FrameKind) (ph : Phase) (i : BitVec 8) : State :=
  { State.reset with
    phase := ph, idx := i
    latch := some (latchOf (Instr.ofKind k (descFields (sample k))))
    history := [.reset, .accept (sample k)]
    env := { Env.quiet with payload := [0x00, 0x00, 0x02] } }

/-- The same with the input levels `p`. -/
def State.at (s : State) (p : Pins) : State := { s with env := { s.env with pins := p } }

/-- V-F6: refused for its kind, not for its length, with `STATUS = 0x02`. -/
theorem test_refusal_kind_first :
    (match step (offering 0x0000C80007 []) with
      | .next t => decide (t.status = 0x02 ∧ t.history = [.reset, .refused .illegalKind] ∧ t.env.cmds = [])
      | .fault _ => false
      | .refused _ => false) = true := by decide

/-- ACCEPT of V-D1: the trace's step 1. -/
theorem test_accept_data :
    (match step (offering 0x0000040000 [0x00, 0x00, 0x00, 0x02]) with
      | .next t => decide (t.phase = .ctrl ∧ t.idx = 0 ∧ t.lfsr = 0x42 ∧ t.crc = 0xFFFF ∧ t.outFull = false ∧
          t.status = 0x01 ∧ t.env.payload.length = 4)
      | .fault _ => false
      | .refused _ => false) = true := by decide

/-- The payload step of the trace of V-D1 (its step 4). -/
theorem test_advance_payload :
    (match step { inside .data .payload 0 with crc := 0xE1F0 } with
      | .next t => decide (t.idx = 1 ∧ t.lfsr = 0x21 ∧ t.crc = 0x7589 ∧ t.outByte = 0x42 ∧ t.phase = .payload)
      | .fault _ => false
      | .refused _ => false) = true := by decide

/-- The escape step of the trace of V-A12 (its step 6). -/
theorem test_advance_crc_lo :
    (match step { inside .ack .crcLo 0 with crc := 0xC113 } with
      | .next t => decide (t.phase = .flag ∧ t.escPend = true ∧ t.escByte = 0x33 ∧ t.outByte = 0x7D)
      | .fault _ => false
      | .refused _ => false) = true := by decide

/-- V-X5: abort wins over the sink taking the flag. -/
theorem test_abort_withdraws_flag :
    (match step (State.at { inside .rst .drain 0 with outFull := true, outLast := true, outByte := 0x7E }
        { Pins.prompt with abort := true }) with
      | .next t => decide (t.phase = .idle ∧ t.outFull = false ∧ t.status = 0x08 ∧
          t.history = [.reset, .accept 0x0000000003, .aborted])
      | .fault _ => false
      | .refused _ => false) = true := by decide

/-- V-X3: while idle, abort takes no descriptor. -/
theorem test_abort_idle :
    step (State.at (offering 0x0000000003 []) { Pins.prompt with abort := true }) =
      .next (State.at (offering 0x0000000003 []) { Pins.prompt with abort := true }) := by rfl

/-- The fetch word is the next command, from any block. -/
theorem test_withFetchWord :
    (match step ((inside .data .drain 2).withFetchWord 40 0x0000000003) with
      | .next t => decide (t.phase = .ctrl ∧ t.latch.map Latch.kind = some .rst)
      | .fault _ => false
      | .refused _ => false) = true := by decide

/-! ### Text (R62) -/

theorem test_parse_retx :
    parseCommand ("RETX frm=2 ack=5 ".toList ++ [openBrace] ++ "01 02 03".toList ++ [closeBrace]) =
      some (.retx 2 5 [0x01, 0x02, 0x03]) := by decide

/-- V-A10's command and descriptor. -/
theorem test_parse_ack :
    ((parseCommand "ACK ack=1 nrdy".toList).bind Command.assemble).map (fun r => encode r.1) =
      some 0x0000000441 := by decide

/-! ### Witnesses: a state for the hypotheses of each statement, in the statements' order -/

/-- Every field at its least and at its greatest value. -/
theorem witness_decoded_descriptors :
    (∃ i, decode 0x0000000000 = .ok i) ∧ (∃ i, decode 0xFFFFFFFFFD = .ok i) := ⟨⟨_, rfl⟩, ⟨_, rfl⟩⟩

theorem witness_every_kind_value :
    ∀ k : BitVec 3, ((k.zeroExtend 40 : Desc)).extractLsb' 0 3 = k := by decide

theorem witness_transferring_channel :
    (offering 0x00000004C1 []).drive.Live ∧ (offering 0x00000004C1 []).drive.phase = .idle ∧
    (offering 0x00000004C1 []).drive.env.pins.cmdValid = true ∧
    (offering 0x00000004C1 []).drive.env.cmds = [0x00000004C1] ∧
    decode 0x00000004C1 = .ok (.ack { Fields.zero with ack := 3, nrdy := true }) := by
  refine ⟨⟨?_, ?_, ?_, ?_⟩, ?_, ?_, ?_, ?_⟩ <;> rfl

theorem witness_data_at_both_bounds :
    ∀ n ∈ [(3 : BitVec 8), 128], State.reset.phase = .idle ∧ State.reset.env.pins.rst = false ∧
      State.reset.env.pins.abort = false ∧ State.reset.cfg.minDataPayload ≤ n.toNat ∧
      n.toNat ≤ State.reset.cfg.maxDataPayload := by decide

theorem witness_data_out_of_bounds :
    State.reset.phase = .idle ∧ State.reset.env.pins.rst = false ∧ State.reset.env.pins.abort = false ∧
    State.reset.cfg.minDataPayload ≤ State.reset.cfg.maxDataPayload ∧
    State.reset.cfg.maxDataPayload < (129 : BitVec 8).toNat ∧
    (2 : BitVec 8).toNat < State.reset.cfg.minDataPayload := by decide

theorem witness_idle_block :
    State.reset.phase = .idle ∧ State.reset.env.pins.rst = false ∧ State.reset.env.pins.abort = false := by decide

theorem witness_channel_closed :
    (inside .rst .crcHi 0).phase ≠ .idle ∧
    (State.at State.reset { Pins.prompt with rst := true }).env.pins.rst = true ∧
    (State.at State.reset { Pins.prompt with abort := true }).env.pins.abort = true := by decide

theorem witness_accept_clauses :
    (∀ d ∈ [(0x0000000006 : Desc), 0x0000000007, 0x0000810000, 0x0000020000, 0x0000030000, 0x0000800000],
      (offering d []).drive.Live ∧ (offering d []).drive.phase = .idle ∧
      (offering d []).drive.env.pins.cmdValid = true ∧ (offering d []).drive.env.cmds = [d]) := by
  simp [offering, State.Live, State.drive, Env.drive, State.reset, Env.quiet, Pins.prompt, Config.ok, Config.default]

/-- A block offered a descriptor that is refused, for each code. -/
theorem witness_refused_descriptors :
    ∀ r ∈ [((0x0000000006 : Desc), ErrCode.illegalKind), (0x0000810000, .oversize), (0x0000020000, .undersize)],
      (offering r.1 []).drive.Live ∧ (offering r.1 []).drive.phase = .idle ∧
      (offering r.1 []).drive.env.pins.cmdValid = true ∧ (offering r.1 []).drive.env.cmds = [r.1] ∧
      (match encodeFrame (offering r.1 []).cfg r.1 [] with
        | .error c => decide (c = r.2)
        | .ok _ => false) = true := by
  intro r hr
  refine ⟨⟨rfl, rfl, rfl, rfl⟩, rfl, rfl, rfl, ?_⟩
  revert r
  decide

theorem witness_accept_answers : ∃ t, step (offering 0x0000810000 []) = .next t := ⟨_, rfl⟩

/-- The block of `inside` is live. -/
theorem inside_live (k : FrameKind) (ph : Phase) (i : BitVec 8) : (inside k ph i).drive.Live :=
  ⟨rfl, rfl, rfl, rfl⟩

/-- ADVANCE: a pending byte, each phase, and a payload byte on offer. -/
theorem witness_advance_clauses :
    (∀ ph : Phase, (inside .data ph 0).drive.Live ∧ (inside .data ph 0).drive.outFull = false ∧
      (inside .data ph 0).drive.phase = ph ∧ (inside .data ph 0).drive.escPend = false ∧
      (inside .data ph 0).drive.latch = some (latchOf (.data { Fields.zero with len := 3 })) ∧
      (inside .data ph 0).drive.env.pins.plValid = true ∧
      (inside .data ph 0).drive.env.payload = [0x00, 0x00, 0x02]) ∧
    ({ inside .data .payload 1 with escPend := true, escByte := 0x5E }).drive.escPend = true :=
  ⟨fun _ => ⟨⟨rfl, rfl, rfl, rfl⟩, rfl, rfl, rfl, rfl, rfl, rfl⟩, rfl⟩

/-- The invariant inside a DATA frame, with a payload byte to read. -/
theorem inv_inside_payload : (inside .data .payload 1).Inv := by
  constructor <;> simp [inside, State.reset, sample, latchOf, Instr.ofKind, descFields, Instr.kind, Instr.fields,
    Config.admitsLen, Config.default]

/-- The invariant with the flag in the slot. -/
def draining : State :=
  { inside .rst .drain 0 with outFull := true, outLast := true, outByte := 0x7E }

theorem inv_draining : draining.Inv := by
  constructor <;> simp [draining, inside, State.reset, sample, latchOf, Instr.ofKind, descFields, Instr.kind,
    Config.default, Constants.ashv2]

/-- The invariant with a byte in the slot that is not the flag. -/
def slotFull : State := { inside .rst .crcHi 0 with outFull := true, outByte := 0xC0 }

theorem inv_slotFull : slotFull.Inv := by
  constructor <;> simp [slotFull, inside, State.reset, sample, latchOf, Instr.ofKind, descFields, Instr.kind]

/-- The invariant between frames, with a command on offer. -/
theorem inv_offering (d : Desc) (p : List Byte) : (offering d p).Inv := by
  constructor <;> simp [offering, State.reset]

theorem witness_advance_enabled :
    (inside .data .payload 1).drive.Inv ∧ (inside .data .payload 1).drive.advanceEnabled = true :=
  ⟨inv_inside_payload, rfl⟩

theorem witness_emit :
    (slotFull.drive.Live ∧ slotFull.drive.Inv ∧ slotFull.drive.outFull = true ∧
      slotFull.drive.env.pins.outReady = true ∧ slotFull.drive.outLast = false) ∧
    (draining.drive.Live ∧ draining.drive.Inv ∧ draining.drive.outFull = true ∧
      draining.drive.env.pins.outReady = true ∧ draining.drive.outLast = true) :=
  ⟨⟨⟨rfl, rfl, rfl, rfl⟩, inv_slotFull, rfl, rfl, rfl⟩, ⟨⟨rfl, rfl, rfl, rfl⟩, inv_draining, rfl, rfl, rfl⟩⟩

/-- Each of the three steps is the enabled one somewhere. -/
theorem witness_each_step_enabled :
    ((offering 0x0000000003 []).Inv ∧ (offering 0x0000000003 []).acceptEnabled = true) ∧
    ((inside .data .payload 1).Inv ∧ (inside .data .payload 1).advanceEnabled = true) ∧
    (slotFull.Inv ∧ slotFull.emitEnabled = true) :=
  ⟨⟨inv_offering _ _, rfl⟩, ⟨inv_inside_payload, rfl⟩, ⟨inv_slotFull, rfl⟩⟩

/-- Blocks with abort asserted, inside a frame and between frames. -/
theorem witness_abort :
    ∀ ph ∈ [Phase.crcHi, .idle],
      let s := State.at (inside .data ph 3) { Pins.prompt with abort := true }
      s.cfg.ok = true ∧ s.resetSeen = true ∧ s.drive.env.pins.rst = false ∧ s.drive.env.pins.abort = true ∧
      s.phase = ph := by decide

theorem witness_reset :
    (State.at slotFull { Pins.prompt with rst := true, abort := true }).cfg.ok = true ∧
    (State.at slotFull { Pins.prompt with rst := true, abort := true }).drive.env.pins.rst = true := ⟨rfl, rfl⟩

/-- A block before its first reset, and two different blocks taking one. -/
theorem witness_run_begins :
    (let s := { State.reset with resetSeen := false };
      s.cfg.ok = true ∧ s.resetSeen = false ∧ s.drive.env.pins.rst = false) ∧
    (let s := State.at { slotFull with resetSeen := false } { Pins.prompt with rst := true };
      let s' := { s with crc := 0x1234, phase := .payload, err := .oversize };
      s.cfg.ok = true ∧ s.drive.env.pins.rst = true ∧ s'.cfg = s.cfg ∧ s'.history = s.history ∧ s'.env = s.env ∧
      s' ≠ s) := by decide

/-- A configuration the step refuses, by each of its three bounds, and one that it does not. -/
theorem witness_bad_configuration :
    (step { State.reset with cfg := { Config.default with minDataPayload := 129 } } matches .refused .badConfig) ∧
    (step { State.reset with cfg := { Config.default with minDataPayload := 0, maxDataPayload := 0 } }
      matches .refused .badConfig) ∧
    (step { State.reset with cfg := { Config.default with maxDataPayload := 256 } } matches .refused .badConfig) ∧
    (step State.reset matches .next _) := by decide

theorem witness_priority :
    (∀ p ∈ [Pins.prompt, { Pins.prompt with rst := true }, { Pins.prompt with abort := true }],
      (State.at slotFull p).cfg.ok = true ∧ (State.at slotFull p).resetSeen = true ∧
      (State.at slotFull p).drive.Inv) ∧
    ((State.at slotFull { Pins.prompt with outReady := false }).acceptEnabled = false ∧
      (State.at slotFull { Pins.prompt with outReady := false }).advanceEnabled = false ∧
      (State.at slotFull { Pins.prompt with outReady := false }).emitEnabled = false) := by
  refine ⟨fun p _ => ⟨rfl, rfl, ?_⟩, rfl, rfl, rfl⟩
  exact ⟨inv_slotFull.1, inv_slotFull.2, inv_slotFull.3, inv_slotFull.4, inv_slotFull.5, inv_slotFull.6,
    inv_slotFull.7, inv_slotFull.8⟩

/-- A step between frames and a step inside one. -/
theorem witness_phase_table :
    ((offering 0x0000000003 []).drive.Inv ∧ (offering 0x0000000003 []).phase = .idle ∧
      ∃ t, step (offering 0x0000000003 []) = .next t ∧ t.phase = .ctrl) ∧
    ((inside .data .payload 1).drive.Inv ∧
      (inside .data .payload 1).latch = some (latchOf (.data { Fields.zero with len := 3 })) ∧
      ∃ t, step (inside .data .payload 1) = .next t ∧ t.idx = 2) :=
  ⟨⟨inv_offering _ _, rfl, _, rfl, rfl⟩, ⟨inv_inside_payload, rfl, _, rfl, rfl⟩⟩

/-- A DATA frame without payload, in a configuration that admits it. -/
theorem witness_empty_data_frame :
    let k := latchOf (.data Fields.zero)
    let s : State := { inside .data .crcHi 0 with
      cfg := { Config.default with minDataPayload := 0 }, latch := some k }
    s.drive.Inv ∧ s.latch = some k ∧ s.phase ≠ .idle ∧ k.kind = .data ∧ k.len = 0 ∧ ∃ t, step s = .next t := by
  refine ⟨?_, rfl, by decide, rfl, rfl, _, rfl⟩
  constructor <;> simp [inside, State.drive, State.reset, latchOf, Instr.kind, Instr.fields, Fields.zero,
    Config.admitsLen, Config.default]

theorem witness_steps_never_fault :
    (inside .data .payload 1).drive.Inv ∧ (inside .data .payload 1).cfg.ok = true ∧
    (inside .data .payload 1).resetSeen = true := ⟨inv_inside_payload, rfl, rfl⟩

/-- `err` changes in an accepting step, a refusing one and an abort. -/
theorem witness_err_written :
    ((offering 0x0000020000 []).drive.Inv ∧ ∃ t, step (offering 0x0000020000 []) = .next t ∧ t.err = .undersize) ∧
    ((State.at slotFull { Pins.prompt with abort := true }).drive.phase ≠ .idle ∧
      ∃ t, step (State.at slotFull { Pins.prompt with abort := true }) = .next t ∧ t.err = .aborted) :=
  ⟨⟨inv_offering _ _, _, rfl, rfl⟩, ⟨by decide, _, rfl, rfl⟩⟩

theorem witness_registers :
    (inside .data .payload 1).drive.Inv ∧ (inside .data .payload 1).drive.env.pins.rst = false ∧
    ∃ t, step (inside .data .payload 1) = .next t ∧ t.crc ≠ 0xFFFF ∧ t.outFull = true :=
  ⟨inv_inside_payload, rfl, _, rfl, by decide, rfl⟩

/-- A full slot: held, taken (a byte that ends no frame, and the flag), withdrawn. -/
theorem witness_offered_byte :
    (slotFull.drive.Inv ∧ slotFull.outFull = true ∧ slotFull.outLast = false) ∧
    (draining.drive.Inv ∧ draining.outFull = true ∧ draining.outLast = true) ∧
    (∃ t, step (State.at slotFull { Pins.prompt with outReady := false }) = .next t ∧ t.outFull = true) ∧
    (∃ t, step slotFull = .next t ∧ t.outFull = false) ∧ (∃ t, step draining = .next t ∧ t.outFull = false) ∧
    (∃ t, step (State.at slotFull { Pins.prompt with abort := true }) = .next t ∧ t.outFull = false) :=
  ⟨⟨inv_slotFull, rfl, rfl⟩, ⟨inv_draining, rfl, rfl⟩, ⟨_, rfl, rfl⟩, ⟨_, rfl, rfl⟩, ⟨_, rfl, rfl⟩, ⟨_, rfl, rfl⟩⟩

/-- A step at a payload handshake and one without. -/
theorem witness_payload_read :
    ((inside .data .payload 1).drive.Inv ∧ (inside .data .payload 1).drive.plReady = true ∧
      (inside .data .payload 1).drive.plValid = true ∧ ∃ t, step (inside .data .payload 1) = .next t) ∧
    (slotFull.drive.Inv ∧ slotFull.drive.plReady = false ∧ ∃ t, step slotFull = .next t) :=
  ⟨⟨inv_inside_payload, rfl, rfl, _, rfl⟩, ⟨inv_slotFull, rfl, _, rfl⟩⟩

theorem witness_history_grows : ∃ t, step draining = .next t ∧ t.history = draining.history ++ [.out 0x7E true, .done] :=
  ⟨_, rfl, rfl⟩

/-- A busy block before whose step the environment offers a command and raises its level. -/
theorem witness_busy_block :
    let s := slotFull.withScript [{ pins := .prompt, cmds := some [0x0000000003], payload := none }]
    s.phase ≠ .idle ∧ s.drive.cmdValid = true ∧ ∃ t, step s = .next t ∧ t.outFull = false :=
  ⟨by decide, rfl, _, rfl, rfl⟩

theorem witness_invariant_step :
    (inside .data .payload 1).Inv ∧ ∃ t, step (inside .data .payload 1) = .next t := ⟨inv_inside_payload, _, rfl⟩

/-- A run of a block that held anything before its reset. -/
theorem witness_reachable :
    ∃ t, Host.Core.run core 2 ({ inside .data .payload 1 with err := .oversize }).resetStep = .next t := ⟨_, rfl⟩

/-- A run from a first reset step that reaches the inside of a frame. -/
theorem witness_run :
    let s := { offering 0x0000000003 [] with history := [], resetSeen := false }
    s.history = [] ∧ ∃ t, Host.Core.run core 2 s.resetStep = .next t ∧ t.phase = .crcHi ∧ t.outByte = 0xC0 :=
  ⟨rfl, _, rfl, rfl, rfl⟩

/-- The start of an RST frame, just after ACCEPT. -/
def started : State := inside .rst .ctrl 0

theorem inv_started : started.Inv := by
  constructor <;> simp [started, inside, State.reset, sample, latchOf, Instr.ofKind, descFields, Instr.kind]

theorem trace_started : started.FrameTrace := fun _ =>
  ⟨[.reset], sample .rst, [], .rst Fields.zero, rfl, by simp, rfl, rfl, rfl, fun q hq => by
    obtain rfl : q = [] := List.length_eq_zero_iff.1 hq
    rfl⟩

theorem lineOk_started : started.LineOk where
  cut h d es g hh _ := by
    have h1 : [Event.reset, .accept (sample .rst)] = h ++ .accept d :: (es ++ g) := hh
    obtain ⟨rfl, rfl, h2⟩ : h = [.reset] ∧ d = sample .rst ∧ es ++ g = [] := by
      match h, h1 with
      | [e], h1 => simp at h1; exact ⟨by rw [h1.1], h1.2.1.symm, by simp [h1.2.2]⟩
      | [], h1 => simp at h1
      | _ :: _ :: _, h1 => simp at h1
    obtain ⟨rfl, rfl⟩ : es = [] ∧ g = [] := by simpa using h2
    exact ⟨.rst Fields.zero, [], _, rfl, rfl, rfl, by simp [lineOf, outsOf]⟩
  whole h d es g hh _ := by
    have h1 : [Event.reset, .accept (sample .rst)] = h ++ .accept d :: (es ++ .done :: g) := hh
    have := congrArg List.length h1
    match h, h1 with
    | [e], h1 => simp at h1
    | [], h1 => simp at h1
    | _ :: _ :: _, h1 => simp at h1
  out_inside h b l g hh := by
    have h1 : [Event.reset, .accept (sample .rst)] = h ++ .out b l :: g := hh
    match h, h1 with
    | [e], h1 => simp at h1
    | [], h1 => simp at h1
    | _ :: _ :: _, h1 => simp at h1
  pay_inside h b g hh := by
    have h1 : [Event.reset, .accept (sample .rst)] = h ++ .pay b :: g := hh
    match h, h1 with
    | [e], h1 => simp at h1
    | [], h1 => simp at h1
    | _ :: _ :: _, h1 => simp at h1

theorem witness_frame_trace : started.Inv ∧ started.FrameTrace ∧ ∃ t, step started = .next t ∧ t.outByte = 0xC0 :=
  ⟨inv_started, trace_started, _, rfl, rfl⟩

theorem witness_line : started.Inv ∧ started.FrameTrace ∧ started.LineOk ∧ ∃ t, step started = .next t :=
  ⟨inv_started, trace_started, lineOk_started, _, rfl⟩

theorem witness_randomizer_bounds : (0 < 1 ∧ 1 < 255) ∧ (0 < 254 ∧ 254 < 255) := by decide

theorem witness_payload_positions : 0 < [(0x01 : Byte), 0x02].length ∧ 1 < [(0x01 : Byte), 0x02].length := by decide

/-- A byte on each side of a reserved one. -/
theorem witness_ordinary_bytes :
    ∀ u ∈ [(0x10 : Byte), 0x12, 0x19, 0x1B, 0x7C, 0x7F],
      u ≠ 0x7E ∧ u ≠ 0x7D ∧ u ≠ 0x11 ∧ u ≠ 0x13 ∧ u ≠ 0x18 ∧ u ≠ 0x1A := by decide

theorem witness_latches_of_every_kind :
    ∀ k ∈ [FrameKind.data, .ack, .nak, .rst, .rstack, .error],
      (latchOf (Instr.ofKind k Fields.zero)).kind = k := by decide

/-- A command of each kind whose frame exists (V-D16, V-A12, V-N7, V-R1, V-K1, V-E1). -/
theorem witness_frames_exist :
    ∀ k ∈ [FrameKind.data, .ack, .nak, .rst, .rstack, .error],
      let i := Instr.ofKind k (descFields (sample k))
      let p : List Byte := if k = .data then [0x00, 0x00, 0x00] else []
      p.length = payloadNeed (latchOf i) ∧ (encodeFrame .default (encode i) p).toOption.isSome = true := by decide

/-- Two commands of each kind that differ only in fields the kind does not use. -/
theorem witness_same_used_fields (f : Fields) :
    SameUsedFields (.data f) (.data { f with nrdy := !f.nrdy, ver := f.ver + 1, code := f.code + 1 }) ∧
    SameUsedFields (.ack f) (.ack { f with frm := f.frm + 1, retx := !f.retx, len := f.len + 1 }) ∧
    SameUsedFields (.nak f) (.nak { f with frm := f.frm + 1, retx := !f.retx, len := f.len + 1 }) ∧
    SameUsedFields (.rst f) (.rst Fields.zero) ∧
    SameUsedFields (.rstack f) (.rstack { f with frm := f.frm + 1, len := f.len + 1 }) ∧
    SameUsedFields (.error f) (.error { f with ack := f.ack + 1, len := f.len + 1 }) := by
  simp [SameUsedFields]

theorem witness_retransmission :
    Constants.ashv2.crcPoly.getLsbD 0 = true ∧ Fields.zero.retx = false := by decide

/-- V-A12's frame: it holds an escape byte. -/
theorem witness_escape_in_frame :
    Config.default.k = Constants.ashv2 ∧
    encodeFrame .default 0x00000004C1 [] = .ok [0x8B, 0xC1, 0x7D, 0x33, 0x7E] ∧
    [(0x8B : Byte), 0xC1, 0x7D, 0x33] = [0x8B, 0xC1] ++ 0x7D :: [0x33] := ⟨rfl, rfl, rfl⟩

/-- The constants of R9 frame a byte stream. -/
theorem ashv2_framing : FramingConstants Constants.ashv2 := by
  refine ⟨rfl, rfl, by decide, ?_⟩
  decide +kernel

theorem witness_unframe :
    FramingConstants Config.default.k ∧
    payloadFits (.data { Fields.zero with len := 3 }) [0x00, 0x00, 0x00] ∧
    ∃ w, encodeFrame .default (encode (.data { Fields.zero with len := 3 })) [0x00, 0x00, 0x00] = .ok w :=
  ⟨ashv2_framing, rfl, _, rfl⟩

/-- A clean block with a DATA command, its payload and one byte more on offer. -/
theorem witness_streaming :
    let s := offering 0x0000030000 [0x00, 0x00, 0x00, 0xFF]
    s.Live ∧ s.Clean ∧ s.env.Prompt ∧ s.env.cmds = 0x0000030000 :: [] ∧
    s.env.payload = [0x00, 0x00, 0x00] ++ [0xFF] ∧ decode 0x0000030000 = .ok (.data { Fields.zero with len := 3 }) ∧
    payloadFits (.data { Fields.zero with len := 3 }) [0x00, 0x00, 0x00] ∧
    ∃ w, encodeFrame s.cfg 0x0000030000 [0x00, 0x00, 0x00] = .ok w ∧ 0 < 2 * w.length ∧
      2 * w.length - 1 < 2 * w.length :=
  ⟨⟨rfl, rfl, rfl, rfl⟩, ⟨rfl, rfl, rfl⟩, ⟨rfl, rfl⟩, rfl, rfl, rfl, rfl, _, rfl, by simp [wireFrame],
    by simp [wireFrame]⟩

theorem witness_data_frame_at_both_bounds :
    ∀ n ∈ [3, 128],
      (List.replicate n (0x00 : Byte)).length = (BitVec.ofNat 8 n).toNat ∧
      Config.default.minDataPayload ≤ (List.replicate n (0x00 : Byte)).length ∧
      (List.replicate n (0x00 : Byte)).length ≤ Config.default.maxDataPayload := by decide +kernel

theorem witness_clean_block (i : Instr) :
    (offering (encode i) []).Live ∧ (offering (encode i) []).Clean ∧ (offering (encode i) []).env.Prompt ∧
    (offering (encode i) []).cfg.k = Constants.ashv2 ∧ (offering (encode i) []).env.cmds = encode i :: [] :=
  ⟨⟨rfl, rfl, rfl, rfl⟩, ⟨rfl, rfl, rfl⟩, ⟨rfl, rfl⟩, rfl, rfl⟩

/-- A block starved of payload and one whose sink does not take its byte. -/
theorem witness_stuck :
    (let s := State.at (inside .data .payload 1) { Pins.prompt with plValid := false };
      s.cfg.ok = true ∧ s.resetSeen = true ∧ s.env.script = [] ∧ s.Stuck ∧ s.Live ∧ s.plReady = true ∧
        s.plValid = false) ∧
    (let s := State.at slotFull { Pins.prompt with outReady := false };
      s.Live ∧ s.Inv ∧ s.outFull = true ∧ s.env.pins.outReady = false ∧ s.Stuck) := by
  refine ⟨⟨rfl, rfl, rfl, ⟨by decide, rfl, rfl, rfl, rfl⟩, ⟨rfl, rfl, rfl, rfl⟩, rfl, rfl⟩,
    ⟨rfl, rfl, rfl, rfl⟩, ?_, rfl, rfl, ⟨by decide, rfl, rfl, rfl, rfl⟩⟩
  exact ⟨inv_slotFull.1, inv_slotFull.2, inv_slotFull.3, inv_slotFull.4, inv_slotFull.5, inv_slotFull.6,
    inv_slotFull.7, inv_slotFull.8⟩

/-- The same block, stuck once the environment's move has made it so. -/
theorem witness_stuck_by_a_move :
    let s := (inside .data .payload 1).withScript
      [{ pins := { Pins.prompt with plValid := false }, cmds := none, payload := none }]
    s.cfg.ok = true ∧ s.resetSeen = true ∧ s.drive.Stuck ∧ s.drive.Live ∧ s.drive.plReady = true ∧
      s.drive.plValid = false :=
  ⟨rfl, rfl, ⟨by decide, rfl, rfl, rfl, rfl⟩, ⟨rfl, rfl, rfl, rfl⟩, rfl, rfl⟩

/-- Two commands, one of them refused, with exactly the payload the other needs. -/
theorem witness_program :
    let s := { offering 0 [] with env := { Env.quiet with cmds := [0x0000020000, 0x0000030000], payload := [1, 2, 3] } }
    s.Live ∧ s.Clean ∧ s.env.Prompt ∧ programNeed s.cfg s.env.cmds = s.env.payload.length :=
  ⟨⟨rfl, rfl, rfl, rfl⟩, ⟨rfl, rfl, rfl⟩, ⟨rfl, rfl⟩, rfl⟩

/-- Lists on both sides of the longest that `LEN` can hold, and a command that stands for an instruction. -/
theorem witness_assembled :
    (List.replicate 255 (0x00 : Byte)).length ≤ 255 ∧ 255 < (List.replicate 256 (0x00 : Byte)).length ∧
    (Command.data 0 0 false [0x05]).assemble = some (.data { Fields.zero with len := 1 }, [0x05]) :=
  ⟨Nat.le_of_eq List.length_replicate, by rw [List.length_replicate]; decide, rfl⟩

/-- `ACK ack=3 nrdy` by R62. -/
theorem test_assemble_ack :
    (Command.ack 3 true).assemble = some (.ack { Fields.zero with ack := 3, nrdy := true }, []) := rfl

/-! ### An endless execution that meets every premise and every duty -/

/-- The environment's moves: reset, a DATA command, then its three payload bytes, with the payload source once and the
sink once not ready. -/
def fairScript : List Move :=
  [ { pins := { Pins.prompt with rst := true }, cmds := none, payload := none }
  , { pins := .prompt, cmds := some [sample .data], payload := none }
  , { pins := { Pins.prompt with outReady := false }, cmds := none, payload := some [0x01, 0x02, 0x03] }
  , { pins := { Pins.prompt with outReady := false }, cmds := none, payload := none }
  , { pins := .prompt, cmds := none, payload := none }
  , { pins := { Pins.prompt with plValid := false }, cmds := none, payload := none }
  , { pins := .prompt, cmds := none, payload := none } ]

/-- A block that held anything at all, `n` steps later. -/
def fairRun : Nat → State
  | 0 => { slotFull with resetSeen := false, history := [], env := { Env.quiet with script := fairScript } }
  | n + 1 =>
    match step (fairRun n) with
    | .next t => t
    | .fault _ => fairRun n
    | .refused _ => fairRun n

/-- The payload meant for the first command, and none for any other. -/
def fairWant : Nat → List Byte
  | 1 => [0x01, 0x02, 0x03]
  | _ => []

/-- What the premises other than fairness ask of one instant after the first. -/
def instantOk (s : State) : Bool :=
  !s.drive.env.pins.rst && !s.drive.env.pins.abort &&
  (s.phase = .idle || match s.latch with
    | some k => (fairWant (framesBegun s.history)).length = payloadNeed k
    | none => true) &&
  (!s.drive.plValid || (s.phase ≠ .idle &&
    s.drive.env.payload.head? = (fairWant (framesBegun s.history))[bytesRead s.history]?))

/-- From instant 18 on nothing changes: the frame is done and no moves are left. -/
theorem fairRun_rests (n : Nat) : fairRun (n + 18) = fairRun 18 := by
  induction n with
  | zero => rfl
  | succ n ih =>
    rw [show n + 1 + 18 = (n + 18) + 1 by omega, fairRun, ih]
    decide +kernel

/-- What holds at the first instants and at rest holds at every instant. -/
theorem fairRun_always (P : State → Bool) (h : (List.range 19).all (fun n => P (fairRun n)) = true) (n : Nat) :
    P (fairRun n) = true := by
  rw [List.all_eq_true] at h
  by_cases hn : n < 19
  · exact h n (List.mem_range.2 hn)
  · obtain ⟨m, rfl⟩ := Nat.exists_eq_add_of_le (Nat.le_of_not_lt hn)
    rw [show 19 + m = (m + 1) + 18 by omega, fairRun_rests]
    exact h 18 (by decide)

theorem fairRun_execution : Execution fairRun := by
  intro n
  have h := fairRun_always (fun s => step s matches .next _) (by decide +kernel) n
  cases hs : step (fairRun n) with
  | next t => exact ⟨t, rfl, by rw [show fairRun (n + 1) = t by rw [fairRun, hs]]; rfl⟩
  | fault _ => rw [hs] at h; cases h
  | refused _ => rw [hs] at h; cases h

theorem fairRun_instants (n : Nat) : instantOk (fairRun (n + 1)) = true := by
  by_cases hn : n < 18
  · revert n; decide +kernel
  · obtain ⟨m, rfl⟩ := Nat.exists_eq_add_of_le (Nat.le_of_not_lt hn)
    rw [show 18 + m + 1 = (m + 1) + 18 by omega, fairRun_rests]
    decide +kernel

theorem fairRun_aligned : PayloadAligned fairRun fairWant where
  length_fits n k hp hk := by
    have h := fairRun_instants n
    simp only [instantOk, hk, hp, Bool.and_eq_true, Bool.or_eq_true, decide_eq_true_eq, false_or] at h
    exact h.1.2
  none_outside n hv := by
    have h := fairRun_instants n
    simp only [instantOk, hv, Bool.and_eq_true, Bool.or_eq_true, Bool.not_true, decide_eq_true_eq] at h
    exact (by simpa using h.2 : _ ∧ _).1
  in_order n hv := by
    have h := fairRun_instants n
    simp only [instantOk, hv, Bool.and_eq_true, Bool.or_eq_true, Bool.not_true, decide_eq_true_eq] at h
    exact (by simpa using h.2 : _ ∧ _).2

/-- The execution meets the launch premises and the duties, accepts a DATA command in its second step, and neither
source nor sink is prompt. -/
theorem witness_fair_execution :
    Execution fairRun ∧ LaunchPremises fairRun fairWant ∧ EnvironmentDuties fairRun fairWant ∧
    (fairRun 2).history = (fairRun 1).history ++ [.accept (sample .data)] ∧
    (fairRun 4).drive.stepKind = .emit ∧ (fairRun 3).drive.stepKind = .wait := by
  have late (n : Nat) : fairRun (n + 18) = fairRun 18 := fairRun_rests n
  have reset : ResetFirst fairRun := rfl
  have sink : SinkFair fairRun := fun n => ⟨n + 18, by omega, .inl (by rw [late]; decide +kernel)⟩
  have launch : LaunchPremises fairRun fairWant :=
    { reset_first := reset
      config_ok := rfl
      payload_aligned := fairRun_aligned
      sink_fair := sink
      payload_fair := fun n => ⟨n + 18, by omega, .inl (by rw [late]; decide +kernel)⟩
      no_abort := fun n => by
        simpa using fairRun_always (fun s => !s.drive.env.pins.abort) (by decide +kernel) n
      no_reset_after_first := fun n => by
        have h := fairRun_instants n
        simp only [instantOk, Bool.and_eq_true, Bool.not_eq_true'] at h
        exact h.1.1.1 }
  refine ⟨fairRun_execution, launch, ⟨reset, fun n hv hk _ => ?_, ?_, fairRun_aligned, sink⟩, by decide +kernel,
    by decide +kernel, by decide +kernel⟩
  · have h := fairRun_always (fun s => !s.drive.cmdValid || s.drive.acceptEnabled) (by decide +kernel) n
    simp [hv, hk] at h
  · exact fairRun_aligned.stable fairRun_execution reset rfl

end Sys2Proof.Tests
end

section
/-! PROOFS. The invariant of R32 along every run (O35), and the reset state's values (O20). -/

namespace Sys2Proof.Machine

/-! ### The invariant of R32, step by step -/

/-- Between frames with an empty slot and no pending byte, R32 asks nothing more: its other clauses speak of a frame
in progress. -/
theorem State.inv_of_idle {s : State} (hp : s.phase = .idle) (hf : s.outFull = false) (he : s.escPend = false) :
    s.Inv := by
  constructor <;> simp [hp, hf, he]

theorem State.resetStep_inv (s : State) : s.resetStep.Inv := State.inv_of_idle rfl rfl rfl

/-- The invariant speaks of the block's own registers, not of the input ports. -/
theorem State.Inv.drive {s : State} (hi : s.Inv) : s.drive.Inv :=
  ⟨hi.idle_empty, hi.drain_flag, hi.last_drain, hi.pend_escape, hi.payload_data, hi.body_kind, hi.busy_latch,
    hi.ctrl_idx⟩

/-- The length ACCEPT latches for a DATA command lies in the bounds. -/
theorem admitsLen_latchOf {c : Config} {i : Instr} (hr : acceptRefusal c i = none) (hd : (latchOf i).kind = .data) :
    c.admitsLen (latchOf i).len = true := by
  cases i with
  | data f => exact admitsLen_of_lengthRefusal hr
  | _ => cases hd

/-- Starting the frame of a command that no check refuses keeps the invariant (R71). -/
theorem State.startFrame_inv {s : State} {i : Instr} (hi : s.Inv) (hp : s.phase = .idle)
    (hr : acceptRefusal s.cfg i = none) : (s.startFrame i).Inv := by
  obtain ⟨hf, he⟩ := hi.idle_empty hp
  constructor
  case busy_latch => exact fun _ => ⟨latchOf i, rfl, admitsLen_latchOf hr⟩
  all_goals simp [hf, he]

/-- The flag, which alone is marked last, ends the frame with no pending byte; any other byte leaves the frame where
it was (R75). -/
theorem State.emit_inv {s : State} (hi : s.Inv) (hf : s.outFull = true) : s.emit.Inv := by
  cases hL : s.outLast with
  | true =>
    have hd : s.phase = .drain := hi.last_drain hL hf
    have he : s.escPend = false := by
      by_contra h
      exact (hi.pend_escape (by simpa using h)).2.2 hd
    exact State.inv_of_idle (by simp [hL]) rfl he
  | false =>
    have hp : s.emit.phase = s.phase := by simp [hL]
    have hidle : s.phase ≠ .idle := State.phase_ne_idle_of_full hi hf
    have hdrain : s.phase ≠ .drain := fun h => by simpa [hL] using (hi.drain_flag h).2.1
    exact
      { idle_empty := fun h => absurd (hp ▸ h) hidle
        drain_flag := fun h => absurd (hp ▸ h) hdrain
        last_drain := fun _ h => by simp at h
        pend_escape := hp ▸ hi.pend_escape
        payload_data := hp ▸ hi.payload_data
        body_kind := hp ▸ hi.body_kind
        busy_latch := hp ▸ hi.busy_latch
        ctrl_idx := hp ▸ hi.ctrl_idx }

/-- The step at given input levels keeps the invariant: a case for each kind of step. -/
theorem State.act_inv {u t : State} (hi : u.Inv) (h : u.act = .next t) : t.Inv := by
  cases State.stepCase h with
  | reset _ e => exact e ▸ u.resetStep_inv
  | abortIdle _ _ _ e => exact e ▸ hi
  | abort _ _ _ e => exact e ▸ State.inv_of_idle rfl rfl rfl
  | start _ ha d ds i _ _ hr e =>
    have hp : u.phase = .idle := (State.acceptEnabled_facts ha).1
    obtain ⟨hf, he⟩ := hi.idle_empty hp
    exact e ▸ State.startFrame_inv (s := u.dropCmd) (State.inv_of_idle hp hf he) hp hr
  | refuse _ ha d ds c _ _ e =>
    have hp : u.phase = .idle := (State.acceptEnabled_facts ha).1
    obtain ⟨hf, he⟩ := hi.idle_empty hp
    exact e ▸ State.inv_of_idle hp hf he
  | emit _ _ he e => exact e ▸ State.emit_inv hi (State.emitEnabled_facts he).1
  | advance _ _ _ hv e => exact State.advance_inv hi hv e
  | wait _ _ _ _ e => exact e ▸ hi

/-- Whatever move the environment makes, a step keeps the invariant. -/
theorem step_inv {s t : State} (hi : s.Inv) (h : step s = .next t) : t.Inv := State.act_inv hi.drive h

/-! ### Runs -/

/-- What every step keeps holds at the end of every run from a state where it holds. -/
theorem run_keeps {P : State → Prop} (hstep : ∀ s t, P s → step s = .next t → P t) {n : Nat} {s t : State}
    (hs : P s) (h : Host.Core.run core n s = .next t) : P t := by
  induction n generalizing s with
  | zero => cases h; exact hs
  | succ n ih =>
    cases hst : step s with
    | next s' => exact ih (hstep s s' hs hst) (run_succ hst ▸ h)
    | fault r => simp only [Host.Core.run, show core.step s = .fault r from hst, reduceCtorEq] at h
    | refused r => simp only [Host.Core.run, show core.step s = .refused r from hst, reduceCtorEq] at h

/-- The escape register while a byte is pending, in the words of R32. -/
theorem State.Inv.escByte_of_pending {s : State} (hi : s.Inv) (h : s.escPend = true) :
    ∃ u ∈ s.cfg.k.reserved, s.escByte = u ^^^ s.cfg.k.escMask := by
  obtain ⟨⟨u, hu, he⟩, -⟩ := hi.pend_escape h
  exact ⟨u, by simpa [isReserved] using hu, he⟩

/-- The latch while a frame is in progress, in the words of R32. -/
theorem State.Inv.latch_of_busy {s : State} (hi : s.Inv) (h : s.phase ≠ .idle) :
    ∃ k, s.latch = some k ∧
      (k.kind = .data → s.cfg.minDataPayload ≤ k.len.toNat ∧ k.len.toNat ≤ s.cfg.maxDataPayload) := by
  obtain ⟨k, hk, hlen⟩ := hi.busy_latch h
  exact ⟨k, hk, fun hd => by simpa [Config.admitsLen] using hlen hd⟩

/-- Settles O35: the reset step establishes the invariant, every step keeps it, and it implies R32's clauses. -/
theorem reachableStatesMeetTheInvariant : Obligations.ReachableStatesMeetTheInvariant := by
  intro s n t h
  have hi : t.Inv := run_keeps (fun _ _ => step_inv) s.resetStep_inv h
  exact ⟨hi.idle_empty, hi.drain_flag, hi.last_drain,
    fun he => ⟨hi.escByte_of_pending he, (hi.pend_escape he).2⟩,
    hi.payload_data, hi.body_kind, hi.latch_of_busy⟩

/-- Settles O20: the fields stand in `State.reset` itself, and each port is a function of them. -/
theorem resetStateHoldsItsValues : Obligations.ResetStateHoldsItsValues :=
  have ports : State.reset.status = 0x00 ∧ State.reset.cmdReady = true ∧ State.reset.plReady = false ∧
      State.reset.outValid = false := ⟨rfl, rfl, rfl, rfl⟩
  ⟨rfl, rfl, rfl, rfl, rfl, rfl, rfl, rfl, rfl, rfl, rfl, ports⟩

end Sys2Proof.Machine
end

section
/-! PROOFS. The line along every run (O38): the descriptor of a command decodes to it, every step keeps the trace of the
frame in progress, and every step keeps what the whole history says of the line. -/

namespace Sys2Proof

/-! ### The descriptor of a command (R47, R48) -/

theorem FrameKind.ofCode_toCode (k : FrameKind) : FrameKind.ofCode k.toCode = some k := by
  cases k <;> rfl

theorem Instr.ofKind_kind_fields (i : Instr) : Instr.ofKind i.kind i.fields = i := by
  cases i <;> rfl

/-- Each operand slice of R47 lies wholly in the field packed there. -/
theorem descFields_packDesc (k : BitVec 3) (f : Fields) : descFields (packDesc k f) = f := by
  simp (disch := omega) only [descFields, packDesc, BitVec.extractLsb'_append_eq_of_le,
    BitVec.extractLsb'_append_eq_of_add_le, BitVec.getLsbD_append]
  simp

theorem decode_encode (i : Instr) : decode (encode i) = .ok i := by
  simp only [decode, encode, descKind_packDesc, FrameKind.ofCode_toCode, descFields_packDesc,
    Instr.ofKind_kind_fields]

end Sys2Proof

namespace Sys2Proof.Machine

/-! ### Stretches of events inside a frame -/

/-- No byte put on the line inside a frame is marked last. -/
theorem outsOf_of_inFrame {es : List Event} (h : ∀ e ∈ es, e.inFrame = true) :
    outsOf es = (lineOf es).map (fun b => (b, false)) := by
  induction es with
  | nil => rfl
  | cons e es ih =>
    obtain ⟨he, hes⟩ := List.forall_mem_cons.1 h
    have ih := ih hes
    cases e with
    | pay b => exact ih
    | out b l =>
      obtain rfl : l = false := by simpa [Event.inFrame] using he
      exact congrArg ((b, false) :: ·) ih
    | _ => cases he

@[simp] theorem paysOf_out (b : Byte) (l : Bool) : paysOf [.out b l] = [] := rfl
@[simp] theorem outsOf_out (b : Byte) (l : Bool) : outsOf [.out b l] = [(b, l)] := rfl
@[simp] theorem lineOf_out (b : Byte) (l : Bool) : lineOf [.out b l] = [b] := rfl

@[simp] theorem paysOf_map_pay (bs : List Byte) : paysOf (bs.map .pay) = bs := by
  induction bs with
  | nil => rfl
  | cons b bs ih => simp [paysOf, ih]

@[simp] theorem lineOf_map_pay (bs : List Byte) : lineOf (bs.map .pay) = [] := by
  induction bs with
  | nil => rfl
  | cons b bs ih => exact ih

/-! ### The trace of the frame in progress (R42, R78) -/

/-- As many payload bytes are due at the start of a frame as its command reads. -/
theorem State.startFrame_payloadDue (s : State) (i : Instr) :
    (s.startFrame i).payloadDue = payloadNeed (latchOf i) := rfl

/-- At the start of a frame nothing is taken and all of `Encode` is to come. -/
theorem State.startFrame_trace {s : State} {i : Instr} (hf : s.outFull = false) (he : s.escPend = false)
    (hr : acceptRefusal s.cfg i = none) : (s.startFrame i).FrameTrace := by
  intro _
  refine ⟨s.history, encode i, [], i, rfl, by simp, decode_encode i, rfl, ?_, fun q _ => ?_⟩
  · simp [paysOf, State.startFrame_payloadDue]
  · rw [State.wireToCome_start (t := s.startFrame i) rfl rfl rfl hf he]
    exact encodeFrame_of_accepted (decode_encode i) hr _

/-- EMIT moves the byte in the slot from those to come to those taken; if it is the last, no frame is in progress. -/
theorem State.emit_trace {s : State} (hi : s.Inv) (ht : s.FrameTrace) (hf : s.outFull = true) :
    s.emit.FrameTrace := by
  cases hL : s.outLast with
  | true => exact fun hp => absurd (by simp [hL]) hp
  | false =>
    intro _
    obtain ⟨h, d, es, i, hh, hes, hd, hk, hn, henc⟩ := ht (State.phase_ne_idle_of_full hi hf)
    refine ⟨h, d, es ++ [.out s.outByte false], i, by simp [hh, hL], ?_, hd, hk, ?_, fun q hq => ?_⟩
    · simpa [or_imp, forall_and, Event.inFrame] using hes
    · simpa [State.emit_payloadDue hL] using hn
    · have := henc q (by rw [hq, State.emit_payloadDue hL])
      rw [State.emit_wire hf hi] at this
      simpa using this

/-- ADVANCE moves the payload byte it reads, if any, from those to come to those read, and leaves the wire bytes to
come as they are. -/
theorem State.advance_trace {s t : State} (hi : s.Inv) (ht : s.FrameTrace) (hv : s.advanceEnabled = true)
    (e : s.advance = .next t) : t.FrameTrace := by
  intro _
  obtain ⟨hp, -, -⟩ := State.advanceEnabled_facts hv
  obtain ⟨h, d, es, i, hh, hes, hd, hk, hn, henc⟩ := ht hp
  obtain ⟨pays, hth, htl, -, -, hdue, -, hwire⟩ := State.advance_wire hi hv e
  refine ⟨h, d, es ++ pays.map .pay, i, by simp [hth, hh], ?_, hd, htl ▸ hk, ?_, fun q hq => ?_⟩
  · intro e he
    rcases List.mem_append.1 he with he | he
    · exact hes e he
    · obtain ⟨b, -, rfl⟩ := List.mem_map.1 he
      rfl
  · rw [← hn, hdue]
    simp [Nat.add_assoc]
  · have := henc (pays ++ q) (by simp [hq, hdue])
    rw [← hwire _ q hk hq] at this
    simpa [State.advance_cfg hv e] using this

/-- The step at given input levels keeps the trace of the frame in progress. -/
theorem State.act_trace {u t : State} (hi : u.Inv) (ht : u.FrameTrace) (h : u.act = .next t) : t.FrameTrace := by
  cases State.stepCase h with
  | reset _ e => exact fun hp => absurd (e ▸ rfl) hp
  | abortIdle _ _ _ e => exact e ▸ ht
  | abort _ _ _ e => exact fun hp => absurd (e ▸ rfl) hp
  | start _ ha d ds i _ _ hr e =>
    obtain ⟨hf, he⟩ := hi.idle_empty (State.acceptEnabled_facts ha).1
    exact e ▸ State.startFrame_trace (s := u.dropCmd) hf he hr
  | refuse _ ha d ds c _ _ e => exact fun hp => absurd (e ▸ (State.acceptEnabled_facts ha).1) hp
  | emit _ _ he e => exact e ▸ State.emit_trace hi ht (State.emitEnabled_facts he).1
  | advance _ _ _ hv e => exact State.advance_trace hi ht hv e
  | wait _ _ _ _ e => exact e ▸ ht

/-- The trace speaks of the block's own registers and its history, not of the input ports. -/
theorem State.FrameTrace.drive {s : State} (ht : s.FrameTrace) : s.drive.FrameTrace := ht

/-- Whatever move the environment makes, a step keeps the trace of the frame in progress. -/
theorem step_trace {s t : State} (hi : s.Inv) (ht : s.FrameTrace) (h : step s = .next t) : t.FrameTrace :=
  State.act_trace hi.drive ht.drive h

/-! ### The last accepted descriptor of a history -/

/-- The history ends with the accepted descriptor `d` and the events `es` of its frame. -/
def EndsInFrame (H : List Event) (d : Desc) (es : List Event) : Prop :=
  (∃ h, H = h ++ .accept d :: es) ∧ ∀ e ∈ es, e.onWire = true

/-- What `LineOk` asks of a stretch of events after an accepted descriptor. -/
def PutsPrefix (c : Config) (d : Desc) (es : List Event) : Prop :=
  ∃ i q w, decode d = .ok i ∧ payloadFits i (paysOf es ++ q) ∧ encodeFrame c d (paysOf es ++ q) = .ok w ∧
    lineOf es <+: w

/-- What `LineOk` asks of the events of a frame that is done. -/
def PutsWhole (c : Config) (d : Desc) (es : List Event) : Prop :=
  ∃ i, decode d = .ok i ∧ payloadFits i (paysOf es) ∧ encodeFrame c d (paysOf es) = .ok (lineOf es) ∧
    outsOf es = (lineOf es).dropLast.map (fun b => (b, false)) ++ [(c.k.flag, true)]

/-- A whole frame puts, of its `Encode`, all and so a first part. -/
theorem PutsWhole.putsPrefix {c : Config} {d : Desc} {es : List Event} (h : PutsWhole c d es) : PutsPrefix c d es := by
  obtain ⟨i, hd, hp, he, -⟩ := h
  exact ⟨i, [], lineOf es, hd, by simpa using hp, by simpa using he, List.prefix_rfl⟩

/-- An append that ends in one element: the element is the end of the right part, unless that is empty. -/
theorem snoc_eq_append {α : Type} {xs ys zs : List α} {a : α} (h : xs ++ [a] = ys ++ zs) :
    (zs = [] ∧ ys = xs ++ [a]) ∨ ∃ zs', zs = zs' ++ [a] ∧ xs = ys ++ zs' := by
  rcases List.eq_nil_or_concat' zs with rfl | ⟨zs', b, rfl⟩
  · exact .inl ⟨rfl, by simpa using h.symm⟩
  · rw [← List.append_assoc] at h
    obtain ⟨hx, rfl⟩ := List.append_singleton_inj.1 h
    exact .inr ⟨zs', rfl, hx⟩

/-- The same with a nonempty right part. -/
theorem snoc_eq_append_cons {α : Type} {xs ys zs : List α} {a z : α} (h : xs ++ [a] = ys ++ z :: zs) :
    (a = z ∧ zs = [] ∧ xs = ys) ∨ ∃ zs', zs = zs' ++ [a] ∧ xs = ys ++ z :: zs' := by
  obtain ⟨hz, -⟩ | ⟨zs', hz, hx⟩ := snoc_eq_append h
  · cases hz
  cases zs' with
  | nil =>
    obtain ⟨rfl, rfl⟩ := List.cons.inj hz
    exact .inl ⟨rfl, rfl, by simpa using hx⟩
  | cons y zs' =>
    obtain ⟨rfl, rfl⟩ := List.cons.inj hz
    exact .inr ⟨zs', rfl, hx⟩

/-- How a history comes to end in a frame: the last event accepts its descriptor, or is one more of its events. -/
theorem EndsInFrame.snoc {H : List Event} {e : Event} {d : Desc} {es : List Event} (h : EndsInFrame (H ++ [e]) d es) :
    (e = .accept d ∧ es = []) ∨ (e.onWire = true ∧ ∃ es', es = es' ++ [e] ∧ EndsInFrame H d es') := by
  obtain ⟨⟨h, hH⟩, hes⟩ := h
  rcases snoc_eq_append_cons hH with ⟨he, hz, -⟩ | ⟨es', rfl, hh⟩
  · exact .inl ⟨he, hz⟩
  · exact .inr ⟨hes e (by simp), es', rfl, ⟨h, hh⟩, fun e' he' => hes e' (by simp [he'])⟩

/-- A history ends in at most one frame. -/
theorem EndsInFrame.unique {H : List Event} {d d' : Desc} {es es' : List Event} (h : EndsInFrame H d es)
    (h' : EndsInFrame H d' es') : d = d' ∧ es = es' := by
  induction H using List.reverseRecOn generalizing es es' with
  | nil => simp [EndsInFrame] at h
  | append_singleton H e ih =>
    rcases h.snoc with ⟨he, rfl⟩ | ⟨hw, fs, rfl, hf⟩ <;>
      rcases h'.snoc with ⟨he', rfl⟩ | ⟨hw', fs', rfl, hf'⟩
    · rw [he] at he'
      exact ⟨by simpa using he', rfl⟩
    · simp [he, Event.onWire] at hw'
    · simp [he', Event.onWire] at hw
    · obtain ⟨rfl, rfl⟩ := ih hf hf'
      exact ⟨rfl, rfl⟩

/-- The events of a frame before its flag are events of the frame. -/
theorem endsInFrame_of_inFrame {H h : List Event} {d : Desc} {es : List Event} (hh : H = h ++ .accept d :: es)
    (hes : ∀ e ∈ es, e.inFrame = true) : EndsInFrame H d es :=
  ⟨⟨h, hh⟩, fun e he => e.onWire_of_inFrame (hes e he)⟩

/-! ### What the history says of the line, event by event (R42, R104) -/

/-- What the history says of the line depends on the configuration and the history only. -/
theorem State.LineOk.congr {s t : State} (hs : s.LineOk) (hc : t.cfg = s.cfg) (hh : t.history = s.history) :
    t.LineOk := by
  constructor
  · rw [hc, hh]; exact hs.cut
  · rw [hc, hh]; exact hs.whole
  · rw [hh]; exact hs.out_inside
  · rw [hh]; exact hs.pay_inside

/-- One more event keeps what the history says of the line, if the frame the history now ends in puts a first part of
its `Encode` on it, the frame that is now done the whole, and a byte is read or put only inside a frame. -/
theorem State.LineOk.record_event {s : State} {e : Event} (hs : s.LineOk)
    (hcut : ∀ d es, EndsInFrame (s.history ++ [e]) d es → PutsPrefix s.cfg d es)
    (hwhole : e = .done → ∀ d es, EndsInFrame s.history d es → PutsWhole s.cfg d es)
    (hin : e.onWire = true → ∃ h d es, s.history = h ++ .accept d :: es ∧ ∀ e' ∈ es, e'.inFrame = true) :
    (s.record [e]).LineOk := by
  constructor <;> simp only [State.record_history, State.record_cfg]
  case cut =>
    intro h d es g hH hes
    rw [← List.cons_append, ← List.append_assoc] at hH
    obtain ⟨-, hh⟩ | ⟨g', -, hh⟩ := snoc_eq_append hH
    · exact hcut d es ⟨⟨h, hh.symm⟩, hes⟩
    · exact hs.cut h d es g' (by simpa using hh) hes
  case whole =>
    intro h d es g hH hes
    rw [← List.cons_append, ← List.append_assoc] at hH
    rcases snoc_eq_append_cons hH with ⟨he, -, hh⟩ | ⟨g', -, hh⟩
    · exact hwhole he d es ⟨⟨h, hh⟩, hes⟩
    · exact hs.whole h d es g' (by simpa using hh) hes
  case out_inside =>
    intro h b l g hH
    rcases snoc_eq_append_cons hH with ⟨rfl, -, rfl⟩ | ⟨g', -, hh⟩
    · exact hin rfl
    · exact hs.out_inside h b l g' hh
  case pay_inside =>
    intro h b g hH
    rcases snoc_eq_append_cons hH with ⟨rfl, -, rfl⟩ | ⟨g', -, hh⟩
    · exact hin rfl
    · exact hs.pay_inside h b g' hh

/-- An event that begins, carries and ends no frame keeps what the history says of the line. -/
theorem State.LineOk.record_outside {s : State} {e : Event} (hs : s.LineOk) (ha : ∀ d, e ≠ .accept d)
    (hd : e ≠ .done) (hw : e.onWire = false) : (s.record [e]).LineOk :=
  hs.record_event
    (fun d es h => by
      rcases h.snoc with ⟨he, -⟩ | ⟨he, -⟩
      · exact absurd he (ha d)
      · simp [hw] at he)
    (fun he => absurd he hd) (fun he => by simp [hw] at he)

/-- An accepted descriptor begins a frame of which nothing is on the line yet. -/
theorem State.LineOk.record_accept {s : State} {i : Instr} (hs : s.LineOk) (hr : acceptRefusal s.cfg i = none) :
    (s.record [.accept (encode i)]).LineOk := by
  have hput : PutsPrefix s.cfg (encode i) [] :=
    ⟨i, List.replicate (payloadNeed (latchOf i)) 0, _, decode_encode i, by simp [payloadFits, paysOf],
      encodeFrame_of_accepted (decode_encode i) hr _, List.nil_prefix⟩
  refine hs.record_event (fun d es h => ?_) (fun he => by cases he) (fun he => by cases he)
  rcases h.snoc with ⟨he, rfl⟩ | ⟨he, -⟩
  · cases he
    exact hput
  · cases he

/-- A byte read or put on the line inside a frame that with it still puts a first part of its `Encode` there. -/
theorem State.LineOk.record_byte {s : State} {e : Event} {h : List Event} {d : Desc} {es : List Event} (hs : s.LineOk)
    (hw : e.onWire = true) (hh : s.history = h ++ .accept d :: es) (hes : ∀ e' ∈ es, e'.inFrame = true)
    (hput : PutsPrefix s.cfg d (es ++ [e])) : (s.record [e]).LineOk := by
  refine hs.record_event (fun d' es' h' => ?_) (fun he => by subst he; cases hw) (fun _ => ⟨h, d, es, hh, hes⟩)
  rcases h'.snoc with ⟨he, -⟩ | ⟨-, fs, rfl, hf⟩
  · subst he
    cases hw
  · obtain ⟨rfl, rfl⟩ := hf.unique (endsInFrame_of_inFrame hh hes)
    exact hput

/-- The end of a frame that has put the whole of its `Encode` on the line. -/
theorem State.LineOk.record_done {s : State} {d : Desc} {es : List Event} (hs : s.LineOk)
    (hf : EndsInFrame s.history d es) (hput : PutsWhole s.cfg d es) : (s.record [.done]).LineOk := by
  refine hs.record_event (fun d' es' h' => ?_) (fun _ d' es' h' => ?_) (fun he => by cases he)
  · rcases h'.snoc with ⟨he, -⟩ | ⟨he, -⟩ <;> cases he
  · obtain ⟨rfl, rfl⟩ := h'.unique hf
    exact hput

/-! ### Every step keeps what the history says of the line -/

/-- With the flag in the slot no escape byte is pending. -/
theorem State.Inv.escPend_of_drain {s : State} (hi : s.Inv) (hp : s.phase = .drain) : s.escPend = false := by
  by_contra h
  exact (hi.pend_escape (by simpa using h)).2.2 hp

/-- With the flag in the slot nothing else is to come. -/
theorem State.wireToCome_drain {s : State} (hi : s.Inv) (hp : s.phase = .drain) (k : Latch) (q : List Byte) :
    s.wireToCome k q = [s.cfg.k.flag] := by
  obtain ⟨hf, -, hb⟩ := hi.drain_flag hp
  simp [State.wireToCome, State.unstuffedToCome, hf, hb, hi.escPend_of_drain hp, hp]

theorem State.payloadDue_drain {s : State} (hp : s.phase = .drain) : s.payloadDue = 0 := by
  unfold State.payloadDue
  cases s.latch <;> simp [hp]

section
/-! The frame in progress as `FrameTrace` gives it. -/

variable {s : State} {d : Desc} {es : List Event} {i : Instr} (hd : decode d = .ok i)
  (hn : (paysOf es).length + s.payloadDue = payloadNeed (latchOf i))
  (henc : ∀ q : List Byte, q.length = s.payloadDue →
    encodeFrame s.cfg d (paysOf es ++ q) = .ok (lineOf es ++ s.wireToCome (latchOf i) q))
include hd hn henc

/-- It has put a first part of its `Encode` on the line: the rest is still to come. -/
theorem putsPrefix_of_trace : PutsPrefix s.cfg d es :=
  ⟨i, List.replicate s.payloadDue 0, _, hd, by simpa [payloadFits] using hn, henc _ (by simp),
    List.prefix_append _ _⟩

/-- The flag in the slot completes it: its bytes are all of `Encode`, only the flag marked last. -/
theorem putsWhole_of_drain (hi : s.Inv) (hp : s.phase = .drain) (hes : ∀ e ∈ es, e.inFrame = true) :
    PutsWhole s.cfg d (es ++ [.out s.cfg.k.flag true]) := by
  rw [State.payloadDue_drain hp] at hn henc
  have hall := henc [] rfl
  rw [State.wireToCome_drain hi hp] at hall
  exact ⟨i, hd, by simpa [payloadFits] using hn, by simpa using hall, by simp [outsOf_of_inFrame hes]⟩

end

/-- A step that adds one byte's event to a frame still in progress keeps what the history says of the line: the trace
after the step says that the frame puts a first part of its `Encode` there. -/
theorem State.LineOk.of_trace {s t : State} {e : Event} (hs : s.LineOk) (ht : t.FrameTrace) (hp : t.phase ≠ .idle)
    (hw : e.onWire = true) (hc : t.cfg = s.cfg) (hh : t.history = s.history ++ [e]) : t.LineOk := by
  obtain ⟨h, d, es, i, hth, hes, hd, -, hn, henc⟩ := ht hp
  have hput : PutsPrefix s.cfg d es := hc ▸ putsPrefix_of_trace hd hn henc
  rcases snoc_eq_append_cons (hh.symm.trans hth) with ⟨rfl, -, -⟩ | ⟨es', rfl, hsh⟩
  · cases hw
  · exact (hs.record_byte hw hsh (fun e' he' => hes e' (by simp [he'])) hput).congr hc hh

/-- ADVANCE records the payload byte it reads, or nothing. -/
theorem State.advance_history {s t : State} (hv : s.advanceEnabled = true) (e : s.advance = .next t) :
    t.history = s.history ∨ ∃ b, t.history = s.history ++ [.pay b] := by
  rcases State.advance_cases hv e with ⟨_, rfl⟩ | ⟨_, ⟨_, k, _, rfl⟩ | ⟨_, k, b, p, _, _, rfl⟩ | ⟨_, k, _, rfl⟩ |
      ⟨_, k, _, rfl⟩ | ⟨_, rfl⟩ | ⟨_, rfl⟩ | ⟨_, rfl⟩⟩
  case inr.inr.inl => exact .inr ⟨b, by simp [State.advPayload]⟩
  all_goals
    left
    simp [State.advPending, State.advCtrl, State.advVersion, State.advCode, State.advCrcHi, State.advCrcLo,
      State.advFlag]

/-- ADVANCE keeps what the history says of the line. -/
theorem State.advance_lineOk {s t : State} (hi : s.Inv) (ht : s.FrameTrace) (hs : s.LineOk)
    (hv : s.advanceEnabled = true) (e : s.advance = .next t) : t.LineOk := by
  have hc := State.advance_cfg hv e
  rcases State.advance_history hv e with hh | ⟨b, hh⟩
  · exact hs.congr hc hh
  · obtain ⟨-, -, -, hp, -⟩ := State.advance_wire hi hv e
    exact hs.of_trace (State.advance_trace hi ht hv e) hp rfl hc hh

/-- EMIT keeps what the history says of the line: the frame is still in progress, or with the flag it is done. -/
theorem State.emit_lineOk {s : State} (hi : s.Inv) (ht : s.FrameTrace) (hs : s.LineOk) (hf : s.outFull = true) :
    s.emit.LineOk := by
  have hp := State.phase_ne_idle_of_full hi hf
  cases hL : s.outLast with
  | false =>
    exact hs.of_trace (State.emit_trace hi ht hf) (by simpa [hL] using hp) rfl rfl (by rw [State.emit_history, hL]; rfl)
  | true =>
    have hdrain := hi.last_drain hL hf
    obtain ⟨-, -, hb⟩ := hi.drain_flag hdrain
    obtain ⟨h, d, es, i, hh, hes, hd, -, hn, henc⟩ := ht hp
    have hput := putsWhole_of_drain hd hn henc hi hdrain hes
    have hend : EndsInFrame (s.history ++ [.out s.cfg.k.flag true]) d (es ++ [.out s.cfg.k.flag true]) :=
      ⟨⟨h, by simp [hh]⟩, by simpa [or_imp, forall_and, Event.onWire] using (endsInFrame_of_inFrame hh hes).2⟩
    have hflag := hs.record_byte rfl hh hes hput.putsPrefix
    exact (hflag.record_done hend hput).congr rfl (by simp [hL, hb])

/-- A reset step keeps what the history says of the line. -/
theorem State.resetStep_lineOk {s : State} (hs : s.LineOk) : s.resetStep.LineOk :=
  (hs.record_outside (e := .reset) (by simp) (by simp) rfl).congr rfl rfl

/-- The step at given input levels keeps what the history says of the line. -/
theorem State.act_lineOk {u t : State} (hi : u.Inv) (ht : u.FrameTrace) (hs : u.LineOk) (h : u.act = .next t) :
    t.LineOk := by
  cases State.stepCase h with
  | reset _ e => exact e ▸ State.resetStep_lineOk hs
  | abortIdle _ _ _ e => exact e ▸ hs
  | abort _ _ _ e => exact (hs.record_outside (e := .aborted) (by simp) (by simp) rfl).congr (e ▸ rfl) (e ▸ rfl)
  | start _ _ d ds i _ _ hr e => exact (hs.record_accept hr).congr (e ▸ rfl) (e ▸ rfl)
  | refuse _ _ d ds c _ _ e =>
    exact (hs.record_outside (e := .refused c) (by simp) (by simp) rfl).congr (e ▸ rfl) (e ▸ rfl)
  | emit _ _ he e => exact e ▸ State.emit_lineOk hi ht hs (State.emitEnabled_facts he).1
  | advance _ _ _ hv e => exact State.advance_lineOk hi ht hs hv e
  | wait _ _ _ _ e => exact e ▸ hs

/-- Whatever move the environment makes, a step keeps what the history says of the line. -/
theorem step_lineOk {s t : State} (hi : s.Inv) (ht : s.FrameTrace) (hs : s.LineOk) (h : step s = .next t) :
    t.LineOk :=
  State.act_lineOk hi.drive ht.drive (hs.congr rfl rfl) h

/-! ### Runs -/

/-- What a run carries from step to step: the invariant of R32, the trace of the frame in progress, and what the
history says of the line. -/
structure State.LineInv (s : State) : Prop where
  inv : s.Inv
  trace : s.FrameTrace
  line : s.LineOk

theorem step_lineInv {s t : State} (hs : s.LineInv) (h : step s = .next t) : t.LineInv :=
  ⟨step_inv hs.inv h, step_trace hs.inv hs.trace h, step_lineOk hs.inv hs.trace hs.line h⟩

/-- An empty history says nothing of the line. -/
theorem State.lineOk_of_no_history {s : State} (h : s.history = []) : s.LineOk := by
  constructor <;> simp [h]

/-- The first reset step establishes what a run carries. -/
theorem State.resetStep_lineInv {s : State} (h : s.history = []) : s.resetStep.LineInv :=
  ⟨s.resetStep_inv, fun hp => absurd rfl hp, State.resetStep_lineOk (State.lineOk_of_no_history h)⟩

/-- Settles O38: the first reset step establishes the invariant, the trace of the frame in progress and what the
history says of the line, and every step keeps the three together. -/
theorem runsPutOnlyAcceptedFramesOnTheLine : Obligations.RunsPutOnlyAcceptedFramesOnTheLine := by
  intro s n t hs h
  exact (run_keeps (fun _ _ => step_lineInv) (State.resetStep_lineInv hs) h).line

end Sys2Proof.Machine
end

section
/-! PROOFS. The encoding: the operand fields of a descriptor that decodes (O3), and the length of a wire frame (O46). -/

namespace Sys2Proof

/-! ### What a descriptor that decodes holds (R48, R49) -/

theorem FrameKind.toCode_of_ofCode {x : BitVec 3} {k : FrameKind} (h : FrameKind.ofCode x = some k) :
    k.toCode = x := by
  unfold FrameKind.ofCode at h
  split_ifs at h <;> cases h <;> exact Eq.symm ‹_›

@[simp] theorem Instr.kind_ofKind (k : FrameKind) (f : Fields) : (Instr.ofKind k f).kind = k := by
  cases k <;> rfl

@[simp] theorem Instr.fields_ofKind (k : FrameKind) (f : Fields) : (Instr.ofKind k f).fields = f := by
  cases k <;> rfl

/-- A decoded command takes its kind and its fields from the descriptor's slices. -/
theorem kind_and_fields_of_decode {d : Desc} {i : Instr} (h : decode d = .ok i) :
    i.kind.toCode = descKind d ∧ i.fields = descFields d := by
  unfold decode at h
  split at h
  next k hk =>
    cases h
    simp [FrameKind.toCode_of_ofCode hk]
  next => cases h

end Sys2Proof

namespace Sys2Proof.Machine

/-- Settles O3: ACCEPT latches a command's kind and fields as they are, and these are the descriptor's slices. -/
theorem operandFieldsStandAtTheirBits : Obligations.OperandFieldsStandAtTheirBits := by
  intro d i h
  obtain ⟨hkind, hfields⟩ := kind_and_fields_of_decode h
  exact ⟨hkind, congrArg Fields.frm hfields, congrArg Fields.ack hfields, congrArg Fields.retx hfields,
    congrArg Fields.nrdy hfields, congrArg Fields.len hfields, congrArg Fields.ver hfields,
    congrArg Fields.code hfields⟩

/-! ### The length of an unstuffed frame, kind by kind (R56) -/

section UnstuffedLength

variable (c : Config) {k : Latch} (p : List Byte)

theorem unstuffedFrame_length : (unstuffedFrame c k p).length = (frameBody c k p).length + 2 := by
  simp [unstuffedFrame, crcBytes_length]

theorem unstuffedFrame_length_of_data (h : k.kind = .data) : (unstuffedFrame c k p).length = p.length + 3 := by
  simp [unstuffedFrame_length, frameBody, h, randomize]

/-- A control byte and the CRC. -/
theorem unstuffedFrame_length_of_ack_nak_rst (h : k.kind = .ack ∨ k.kind = .nak ∨ k.kind = .rst) :
    (unstuffedFrame c k p).length = 3 := by
  rcases h with h | h | h <;> simp [unstuffedFrame_length, frameBody, h]

/-- A control byte, version, code and the CRC. -/
theorem unstuffedFrame_length_of_rstack_error (h : k.kind = .rstack ∨ k.kind = .error) :
    (unstuffedFrame c k p).length = 5 := by
  rcases h with h | h <;> simp [unstuffedFrame_length, frameBody, h]

end UnstuffedLength

/-! ### The length of a wire frame (R58) -/

/-- Stuffing adds one byte for each reserved byte, and the flag is one more. -/
theorem wireFrame_length (c : Config) (k : Latch) (p : List Byte) :
    (wireFrame c k p).length =
      (unstuffedFrame c k p).length + (unstuffedFrame c k p).countP (isReserved c.k) + 1 := by
  simp [wireFrame, stuff_length]

/-- Between no byte of the unstuffed frame reserved and every byte reserved. -/
theorem wireFrame_length_bounds (c : Config) (k : Latch) (p : List Byte) :
    (unstuffedFrame c k p).length + 1 ≤ (wireFrame c k p).length ∧
      (wireFrame c k p).length ≤ 2 * (unstuffedFrame c k p).length + 1 := by
  have hres : (unstuffedFrame c k p).countP (isReserved c.k) ≤ (unstuffedFrame c k p).length :=
    List.countP_le_length
  rw [wireFrame_length]
  omega

/-- What `Encode` answers for a descriptor that decodes is the wire frame of a command no check refuses. -/
theorem wireFrame_of_encodeFrame {c : Config} {d : Desc} {i : Instr} {p w : List Byte} (hd : decode d = .ok i)
    (h : encodeFrame c d p = .ok w) : acceptRefusal c i = none ∧ w = wireFrame c (latchOf i) p := by
  cases hr : acceptRefusal c i with
  | some e => simp [encodeFrame, hd, hr] at h
  | none =>
    rw [encodeFrame_of_accepted hd hr] at h
    exact ⟨rfl, (Except.ok.inj h).symm⟩

/-- The payload of a DATA command that is not refused is within the configuration's bounds (R95). -/
theorem payload_length_bounds {c : Config} {i : Instr} {p : List Byte} (hfit : payloadFits i p)
    (hr : acceptRefusal c i = none) (hd : (latchOf i).kind = .data) :
    c.minDataPayload ≤ p.length ∧ p.length ≤ c.maxDataPayload := by
  have hlen : p.length = (latchOf i).len.toNat := by rw [hfit, payloadNeed, hd]
  simpa [hlen, Config.admitsLen] using admitsLen_latchOf hr hd

/-- Settles O46: stuffing at most doubles the unstuffed frame, whose length the kind gives; a DATA payload is within
the default bounds 3 and 128. -/
theorem wireFramesHaveTheirLengths : Obligations.WireFramesHaveTheirLengths := by
  intro c i p w hfit henc
  obtain ⟨hr, rfl⟩ := wireFrame_of_encodeFrame (decode_encode i) henc
  have hb := wireFrame_length_bounds c (latchOf i) p
  refine ⟨wireFrame_length c (latchOf i) p, fun hk => ?_, fun hk => ?_, fun hk => ?_, fun hk hc => ?_⟩
  · rw [unstuffedFrame_length_of_ack_nak_rst (k := latchOf i) c p hk] at hb
    exact hb
  · rw [unstuffedFrame_length_of_rstack_error (k := latchOf i) c p hk] at hb
    exact hb
  · rw [unstuffedFrame_length_of_data (k := latchOf i) c p hk] at hb
    omega
  · rw [unstuffedFrame_length_of_data (k := latchOf i) c p hk] at hb
    subst hc
    obtain ⟨hmin, hmax⟩ : 3 ≤ p.length ∧ p.length ≤ 128 := payload_length_bounds hfit hr hk
    omega

end Sys2Proof.Machine
end

section
/-! PROOFS. The datapath: `Unframe` inverts `Encode` (O50), each part of a frame by the inverse of that part. -/

namespace Sys2Proof.Machine

/-! ### Stuffing and its inverse (R68, R80) -/

theorem escaped_escaped (k : Constants) (u : Byte) : escaped k (escaped k u) = u := by
  simp [escaped]

theorem ne_of_not_isReserved {k : Constants} {u v : Byte} (hu : isReserved k u = true) (hv : ¬ isReserved k v = true) :
    v ≠ u := by
  rintro rfl
  exact hv hu

/-- The scan undoes an escape pair. -/
theorem unstuff_esc_cons (k : Constants) (x : Byte) (s : List Byte) :
    unstuff k (k.esc :: x :: s) = (unstuff k s).map (escaped k x :: ·) := by
  simp [unstuff]

/-- The scan passes over a byte that is not the escape byte. -/
theorem unstuff_cons_of_ne {k : Constants} {b : Byte} (h : b ≠ k.esc) (s : List Byte) :
    unstuff k (b :: s) = (unstuff k s).map (b :: ·) := by
  cases s <;> simp [unstuff, h]

/-- With the escape byte itself escaped, the scan undoes the stuffing of one byte. -/
theorem unstuff_stuffByte_append {k : Constants} (hesc : isReserved k k.esc = true) (u : Byte) (s : List Byte) :
    unstuff k (stuffByte k u ++ s) = (unstuff k s).map (u :: ·) := by
  unfold stuffByte
  split
  next => simp [unstuff_esc_cons, escaped_escaped]
  next hu => exact unstuff_cons_of_ne (ne_of_not_isReserved hesc hu) s

theorem unstuff_stuff {k : Constants} (hesc : isReserved k k.esc = true) (us : List Byte) :
    unstuff k (stuff k us) = some us := by
  induction us with
  | nil => rfl
  | cons u us ih => simp [unstuff_stuffByte_append hesc, ih]

/-- No byte of a stuffed sequence is the flag: it is an ordinary byte, the escape byte or an escaped form (R59). -/
theorem flag_notMem_stuff {k : Constants} (hk : FramingConstants k) (us : List Byte) : k.flag ∉ stuff k us := by
  obtain ⟨hflag, -, hne, hescaped⟩ := hk
  rw [stuff, List.mem_flatMap]
  rintro ⟨u, -, hu⟩
  unfold stuffByte at hu
  split at hu
  next hres => simp [hne.symm, (hescaped u hres).symm] at hu
  next hres => exact ne_of_not_isReserved hflag hres (List.mem_singleton.1 hu).symm

/-- `Unframe` finds the flag at the end of a stuffed sequence and undoes the stuffing before it. -/
theorem unframe_stuff_flag {k : Constants} (hk : FramingConstants k) (us : List Byte) :
    unframe k (stuff k us ++ [k.flag]) = parseUnstuffed k us := by
  have hflag : k.flag ∉ stuff k us := flag_notMem_stuff hk us
  obtain ⟨-, hesc, -, -⟩ := hk
  simp [unframe, hflag, unstuff_stuff hesc]

/-! ### The CRC and the payload -/

/-- A body followed by its own CRC passes the check and is parsed. -/
theorem parseUnstuffed_append_crc {k : Constants} {body : List Byte} (h : body ≠ []) :
    parseUnstuffed k (body ++ crcBytes (crc16 k body)) = parseBody k body := by
  have hlen : (body ++ crcBytes (crc16 k body)).length = body.length + 2 := by simp [crcBytes_length]
  have hpos : 0 < body.length := List.length_pos_iff.2 h
  simp [parseUnstuffed, hlen, show ¬ body.length + 2 < 3 by omega]

/-- The randomizer register does not depend on the bytes, so that randomizing twice gives them back (R67). -/
theorem randomizeFrom_randomizeFrom (k : Constants) (r : Byte) (p : List Byte) :
    randomizeFrom k r (randomizeFrom k r p) = p := by
  induction p generalizing r with
  | nil => rfl
  | cons b p ih => simp [ih]

theorem randomize_randomize (k : Constants) (p : List Byte) : randomize k (randomize k p) = p :=
  randomizeFrom_randomizeFrom k k.lfsrSeed p

/-! ### The body, by its control byte (R52 to R55) -/

section ControlByte

variable (k : Constants) (frm ack : SeqNum) (retx nrdy : Bool) (v c : Byte)

theorem dataCtrl_slices :
    (dataCtrl frm retx ack).getLsbD 7 = false ∧ (dataCtrl frm retx ack).extractLsb' 4 3 = frm ∧
      (dataCtrl frm retx ack).getLsbD 3 = retx ∧ (dataCtrl frm retx ack).extractLsb' 0 3 = ack := by
  simp (disch := omega) only [dataCtrl, BitVec.extractLsb'_append_eq_of_le,
    BitVec.extractLsb'_append_eq_of_add_le, BitVec.getLsbD_append]
  simp

theorem ackCtrl_slices :
    (ackCtrl nrdy ack).getLsbD 7 = true ∧ (ackCtrl nrdy ack).extractLsb' 4 4 = 0x8#4 ∧
      (ackCtrl nrdy ack).getLsbD 3 = nrdy ∧ (ackCtrl nrdy ack).extractLsb' 0 3 = ack := by
  simp (disch := omega) only [ackCtrl, BitVec.extractLsb'_append_eq_of_le,
    BitVec.extractLsb'_append_eq_of_add_le, BitVec.getLsbD_append]
  simp

theorem nakCtrl_slices :
    (nakCtrl nrdy ack).getLsbD 7 = true ∧ (nakCtrl nrdy ack).extractLsb' 4 4 = 0xA#4 ∧
      (nakCtrl nrdy ack).getLsbD 3 = nrdy ∧ (nakCtrl nrdy ack).extractLsb' 0 3 = ack := by
  simp (disch := omega) only [nakCtrl, BitVec.extractLsb'_append_eq_of_le,
    BitVec.extractLsb'_append_eq_of_add_le, BitVec.getLsbD_append]
  simp

theorem parseBody_data (rest : List Byte) :
    parseBody k (dataCtrl frm retx ack :: rest) = some (.data frm retx ack (randomize k rest)) := by
  obtain ⟨hbit7, hfrm, hretx, hack⟩ := dataCtrl_slices frm ack retx
  simp only [parseBody, hbit7, hfrm, hretx, hack, if_true]

theorem parseBody_ack : parseBody k [ackCtrl nrdy ack] = some (.ack nrdy ack) := by
  obtain ⟨hbit7, hhigh, hnrdy, hack⟩ := ackCtrl_slices ack nrdy
  simp [parseBody, -BitVec.getLsbD_eq_getElem, hbit7, hhigh, hnrdy, hack]

theorem parseBody_nak : parseBody k [nakCtrl nrdy ack] = some (.nak nrdy ack) := by
  obtain ⟨hbit7, hhigh, hnrdy, hack⟩ := nakCtrl_slices ack nrdy
  simp [parseBody, -BitVec.getLsbD_eq_getElem, hbit7, hhigh, hnrdy, hack]

theorem parseBody_rst : parseBody k [rstCtrl] = some .rst := by
  simp [parseBody, rstCtrl]

theorem parseBody_rstack : parseBody k [rstackCtrl, v, c] = some (.rstack v c) := by
  simp [parseBody, rstackCtrl]

theorem parseBody_error : parseBody k [errorCtrl, v, c] = some (.error v c) := by
  simp [parseBody, errorCtrl]

end ControlByte

/-! ### The whole frame -/

theorem frameBody_ne_nil (c : Config) (k : Latch) (p : List Byte) : frameBody c k p ≠ [] := by
  unfold frameBody
  cases k.kind <;> simp

/-- The body of a command's frame parses to the fields its kind uses. -/
theorem parseBody_frameBody (c : Config) (i : Instr) (p : List Byte) :
    parseBody c.k (frameBody c (latchOf i) p) = some (frameOf i p) := by
  cases i with
  | data f =>
    calc parseBody c.k (frameBody c (latchOf (.data f)) p)
        = some (.data f.frm f.retx f.ack (randomize c.k (randomize c.k p))) := parseBody_data ..
      _ = some (.data f.frm f.retx f.ack p) := by rw [randomize_randomize]
  | ack f => exact parseBody_ack ..
  | nak f => exact parseBody_nak ..
  | rst f => exact parseBody_rst ..
  | rstack f => exact parseBody_rstack ..
  | error f => exact parseBody_error ..

theorem unframe_wireFrame {c : Config} (hk : FramingConstants c.k) (i : Instr) (p : List Byte) :
    unframe c.k (wireFrame c (latchOf i) p) = some (frameOf i p) := by
  rw [wireFrame, unframe_stuff_flag hk, unstuffedFrame, parseUnstuffed_append_crc (frameBody_ne_nil c _ p),
    parseBody_frameBody]

/-- Settles O50: what `Encode` answers for a command is its wire frame, whose flag, stuffing, CRC and body `Unframe`
takes off in turn. -/
theorem unframeInvertsEncode : Obligations.UnframeInvertsEncode := by
  intro c i p w hk _ henc
  obtain ⟨-, rfl⟩ := wireFrame_of_encodeFrame (decode_encode i) henc
  exact unframe_wireFrame hk i p

end Sys2Proof.Machine
end

section
/-! PROOFS. The steps of the datapath: ACCEPT (O12), ADVANCE (O15) and EMIT (O16), rule by rule, and the transitions of
`phase` that they make (O24). -/

namespace Sys2Proof

/-! ### What ACCEPT reads from the descriptor (R47 to R49) -/

theorem ofBool_getLsbD {n : Nat} (x : BitVec n) (i : Nat) : BitVec.ofBool (x.getLsbD i) = x.extractLsb' i 1 := by
  ext j hj
  obtain rfl : j = 0 := by omega
  simp

/-- The nine fields of R47 cover the descriptor without a gap. -/
theorem packDesc_slices (d : Desc) : packDesc (descKind d) (descFields d) = d := by
  simp (disch := rfl) only [packDesc, descKind, descFields, ofBool_getLsbD,
    BitVec.extractLsb'_append_extractLsb'_eq_extractLsb']
  exact BitVec.extractLsb'_eq_self

theorem encode_of_decode {d : Desc} {i : Instr} (h : decode d = .ok i) : encode i = d := by
  obtain ⟨hkind, hfields⟩ := kind_and_fields_of_decode h
  rw [encode, hkind, hfields, packDesc_slices]

/-- `KIND` values 6 and 7 are the illegal ones (R48). -/
theorem FrameKind.ofCode_eq_none_iff (x : BitVec 3) : FrameKind.ofCode x = none ↔ x = 6 ∨ x = 7 := by
  revert x
  decide

theorem FrameKind.toCode_eq_zero_iff (k : FrameKind) : k.toCode = 0 ↔ k = .data := by
  cases k <;> decide

theorem ofCode_descKind_of_decode {d : Desc} {i : Instr} (h : decode d = .ok i) :
    FrameKind.ofCode (descKind d) = some i.kind := by
  rw [← (kind_and_fields_of_decode h).1, FrameKind.ofCode_toCode]

theorem decode_eq_error_iff {d : Desc} :
    decode d = .error .illegalKind ↔ d.extractLsb' 0 3 = 6 ∨ d.extractLsb' 0 3 = 7 := by
  change _ ↔ descKind d = 6 ∨ descKind d = 7
  rw [← FrameKind.ofCode_eq_none_iff]
  unfold decode
  split
  next hk => simp [hk]
  next hk => simp [hk]

end Sys2Proof

namespace Sys2Proof.Machine

/-- The length checks of ACCEPT, for a command of any kind (R71, R95). -/
theorem acceptRefusal_eq (c : Config) (i : Instr) :
    acceptRefusal c i =
      if i.kind = .data ∧ c.maxDataPayload < i.fields.len.toNat then some .oversize
      else if i.kind = .data ∧ i.fields.len.toNat < c.minDataPayload then some .undersize
      else none := by
  cases i <;> simp [acceptRefusal, lengthRefusal, Instr.kind, Instr.fields]

theorem State.acceptEnabled_of_offer {s : State} {d : Desc} {ds : List Desc} (hl : s.Live) (hp : s.phase = .idle)
    (hv : s.env.pins.cmdValid = true) (hc : s.env.cmds = d :: ds) : s.acceptEnabled = true := by
  obtain ⟨-, -, hrst, habort⟩ := hl
  simp [State.acceptEnabled, State.canTransfer, State.cmdReady, State.cmdValid, hp, hrst, habort, hv, hc]

theorem step_of_acceptEnabled {s : State} (hl : s.drive.Live) (ha : s.drive.acceptEnabled = true) :
    step s = s.drive.acceptStep := by
  rw [step_eq_act, State.act_of_live hl, if_pos ha]

theorem State.dropCmd_of_cons {s : State} {d : Desc} {ds : List Desc} (hc : s.env.cmds = d :: ds) :
    s.dropCmd = { s with env := { s.env with cmds := ds } } := by
  simp [State.dropCmd, hc]

/-- The latch of a decoded command, from the descriptor's slices (R49). -/
theorem latchOf_of_decode {d : Desc} {i : Instr} (h : decode d = .ok i) :
    some (latchOf i) = (FrameKind.ofCode (d.extractLsb' 0 3)).map (fun k =>
      { kind := k, frm := d.extractLsb' 3 3, ack := d.extractLsb' 6 3, retx := d.getLsbD 9,
        nrdy := d.getLsbD 10, len := d.extractLsb' 16 8, ver := d.extractLsb' 24 8,
        code := d.extractLsb' 32 8 }) := by
  have hcode : FrameKind.ofCode (d.extractLsb' 0 3) = some i.kind := ofCode_descKind_of_decode h
  obtain ⟨-, hfields⟩ := kind_and_fields_of_decode h
  rw [hcode, latchOf, hfields]
  rfl

/-- The length checks of a decoded command, on the descriptor's own bits. -/
theorem acceptRefusal_of_decode {d : Desc} {i : Instr} (c : Config) (h : decode d = .ok i) :
    acceptRefusal c i =
      if d.extractLsb' 0 3 = 0 ∧ c.maxDataPayload < (d.extractLsb' 16 8).toNat then some .oversize
      else if d.extractLsb' 0 3 = 0 ∧ (d.extractLsb' 16 8).toNat < c.minDataPayload then some .undersize
      else none := by
  obtain ⟨hcode, hfields⟩ := kind_and_fields_of_decode h
  have hdata : i.kind = .data ↔ d.extractLsb' 0 3 = 0 := by
    rw [← FrameKind.toCode_eq_zero_iff, hcode, descKind]
  have hlen : i.fields.len = d.extractLsb' 16 8 := congrArg Fields.len hfields
  simp only [acceptRefusal_eq, hdata, hlen]

/-- Settles O12: the checks of the rule, on the descriptor's own bits, are those ACCEPT makes on the decoded command,
and the fields it latches are the descriptor's slices. -/
theorem acceptFollowsItsRule : Obligations.AcceptFollowsItsRule := by
  intro s d ds hl hp hv hc taken refused
  have ha := State.acceptEnabled_of_offer hl hp hv hc
  have htaken : s.drive.dropCmd = taken := State.dropCmd_of_cons hc
  rw [step_of_acceptEnabled hl ha]
  obtain ⟨d', ds', hc', hcases⟩ := State.acceptStep_cases ha
  obtain ⟨rfl, rfl⟩ : d = d' ∧ ds = ds' := by simpa [hc] using hc'
  rw [htaken] at hcases
  have legal {i : Instr} (hd : decode d = .ok i) : ¬ (d.extractLsb' 0 3 = 6 ∨ d.extractLsb' 0 3 = 7) :=
    fun h => by simp [decode_eq_error_iff.2 h] at hd
  rcases hcases with ⟨i, hd, hr, e⟩ | ⟨i, c, hd, hr, e⟩ | ⟨hd, e⟩
  · rw [acceptRefusal_of_decode _ hd, State.drive_cfg] at hr
    rw [e, if_neg (legal hd), ← latchOf_of_decode hd]
    split_ifs at hr ⊢
    rw [State.startFrame, encode_of_decode hd]
    rfl
  · rw [acceptRefusal_of_decode _ hd, State.drive_cfg] at hr
    rw [e, if_neg (legal hd)]
    split_ifs at hr ⊢ <;> cases hr <;> rfl
  · rw [e, if_pos (decode_eq_error_iff.1 hd)]
    rfl

theorem State.acceptEnabled_of_busy {s : State} (hp : s.phase ≠ .idle) : s.acceptEnabled = false := by
  simp [State.acceptEnabled, State.canTransfer, State.cmdReady, hp]

/-! ### ADVANCE, phase by phase (R72, R73) -/

section Advance

variable {s : State} {k : Latch}

/-- Inside a frame with an empty slot ADVANCE waits for a payload byte, and for nothing else (R72). -/
theorem State.advanceEnabled_eq_false_iff (hidle : s.phase ≠ .idle) (hdrain : s.phase ≠ .drain)
    (hf : s.outFull = false) :
    s.advanceEnabled = false ↔ s.escPend = false ∧ s.phase = .payload ∧ s.plValid = false := by
  simp [State.advanceEnabled, hf, hidle, hdrain, and_comm, and_assoc]

theorem step_of_advanceEnabled (hl : s.drive.Live) (hv : s.drive.advanceEnabled = true) :
    step s = s.drive.advance := by
  obtain ⟨hidle, -, hf⟩ := State.advanceEnabled_facts hv
  have he : s.drive.emitEnabled = false := by rw [State.emitEnabled, hf, Bool.false_and]
  simp [step_eq_act, State.act_of_live hl, State.acceptEnabled_of_busy hidle, he, hv]

theorem State.advance_of_pending (he : s.escPend = true) : s.advance = .next s.advPending := by
  simp [State.advance, he]

theorem State.advance_ctrl (he : s.escPend = false) (hp : s.phase = .ctrl) (hk : s.latch = some k) :
    s.advance = .next (s.advCtrl k) := by
  simp [State.advance, State.withLatch, he, hp, hk]

theorem State.advance_payload {b : Byte} {p : List Byte} (he : s.escPend = false) (hp : s.phase = .payload)
    (hk : s.latch = some k) (hq : s.env.payload = b :: p) : s.advance = .next (s.advPayload k b) := by
  simp [State.advance, State.withLatch, he, hp, hk, hq]

theorem State.advance_version (he : s.escPend = false) (hp : s.phase = .version) (hk : s.latch = some k) :
    s.advance = .next (s.advVersion k) := by
  simp [State.advance, State.withLatch, he, hp, hk]

theorem State.advance_code (he : s.escPend = false) (hp : s.phase = .code) (hk : s.latch = some k) :
    s.advance = .next (s.advCode k) := by
  simp [State.advance, State.withLatch, he, hp, hk]

theorem State.advance_crcHi (he : s.escPend = false) (hp : s.phase = .crcHi) : s.advance = .next s.advCrcHi := by
  simp [State.advance, he, hp]

theorem State.advance_crcLo (he : s.escPend = false) (hp : s.phase = .crcLo) : s.advance = .next s.advCrcLo := by
  simp [State.advance, he, hp]

theorem State.advance_flag (he : s.escPend = false) (hp : s.phase = .flag) : s.advance = .next s.advFlag := by
  simp [State.advance, he, hp]

/-- The CRC does not depend on the slot, nor the slot on the CRC. -/
theorem State.putStuffed_absorb (s : State) (u b : Byte) :
    (s.absorb b).putStuffed u = { s.putStuffed u with crc := crcStep s.cfg.k s.crc b } := by
  unfold State.putStuffed
  split <;> simp_all [State.absorb, State.outPut]

/-- ADVANCE in `PAYLOAD` as one update of the state (R72). -/
theorem State.advPayload_eq {b : Byte} {p : List Byte} (hq : s.env.payload = b :: p) :
    s.advPayload k b = { s.putStuffed (b ^^^ s.lfsr) with
      crc := crcStep s.cfg.k s.crc (b ^^^ s.lfsr), lfsr := lfsrStep s.cfg.k s.lfsr, idx := s.idx + 1
      env := { s.env with payload := p }, history := s.history ++ [.pay b]
      phase := if s.idx.toNat + 1 = k.len.toNat then .crcHi else .payload } := by
  simp [State.advPayload, State.putStuffed_absorb, State.dropPayload, State.record, hq]

end Advance

/-- Settles O15: with an empty slot the step is ADVANCE, and each of its phases is the rule's; it answers a next state
wherever the latch holds a value. -/
theorem advanceFollowsItsRule : Obligations.AdvanceFollowsItsRule := by
  intro s hl hf u put
  have hput : put = State.putStuffed := by
    funext t b
    simp only [put, State.putStuffed, isReserved, List.contains_iff_mem]
    rfl
  clear_value put
  subst hput
  have hstep {ph : Phase} (hp : u.phase = ph) (hidle : ph ≠ .idle) (hdrain : ph ≠ .drain)
      (hpay : ph = .payload → u.escPend = true ∨ u.plValid = true) : step s = u.advance := by
    subst hp
    refine step_of_advanceEnabled hl (Bool.of_not_eq_false fun hv => ?_)
    obtain ⟨he, hp, hv⟩ := (State.advanceEnabled_eq_false_iff (s := u) hidle hdrain hf).1 hv
    simpa [he, hv] using hpay hp
  refine ⟨fun he hidle hdrain => ?pending, fun he k => ⟨fun hp hk => ?ctrl, fun b p hp hk hv hq => ?payload,
    fun hp hk => ?version, fun hp hk => ?code, fun hp => ?crcHi, fun hp => ?crcLo, fun hp => ?flag⟩,
    fun hi hv => ?answers⟩
  case pending =>
    rw [hstep rfl hidle hdrain fun _ => .inl he, State.advance_of_pending he]
    rfl
  case ctrl =>
    rw [hstep hp nofun nofun nofun, State.advance_ctrl he hp hk, State.advCtrl, State.putStuffed_absorb]
  case payload =>
    have hoffer : u.plValid = true := by simp [State.plValid, hv, hq]
    rw [hstep hp nofun nofun fun _ => .inr hoffer, State.advance_payload he hp hk hq, State.advPayload_eq hq]
  case version =>
    rw [hstep hp nofun nofun nofun, State.advance_version he hp hk, State.advVersion, State.putStuffed_absorb]
  case code =>
    rw [hstep hp nofun nofun nofun, State.advance_code he hp hk, State.advCode, State.putStuffed_absorb]
  case crcHi => rw [hstep hp nofun nofun nofun, State.advance_crcHi he hp, State.advCrcHi, crcHigh]
  case crcLo => rw [hstep hp nofun nofun nofun, State.advance_crcLo he hp, State.advCrcLo, crcLow]
  case flag =>
    rw [hstep hp nofun nofun nofun, State.advance_flag he hp]
    rfl
  case answers =>
    obtain ⟨t, ht⟩ := State.advance_ok hi hv
    exact ⟨t, (step_of_advanceEnabled hl hv).trans ht, State.advance_err hv ht⟩

/-! ### EMIT (R75) -/

theorem State.emit_of_not_last {s : State} (h : s.outLast = false) :
    s.emit = { s with outFull := false, history := s.history ++ [.out s.outByte false] } := by
  simp [State.emit, State.record, h]

theorem State.emit_of_last {s : State} (h : s.outLast = true) :
    s.emit = { s with outFull := false, phase := .idle, history := s.history ++ [.out s.outByte true, .done] } := by
  simp [State.emit, State.record, h]

/-- A full slot belongs to a frame in progress, so that with a ready sink the step is EMIT. -/
theorem step_of_full {s : State} (hl : s.drive.Live) (hi : s.drive.Inv) (hf : s.drive.outFull = true)
    (hready : s.drive.env.pins.outReady = true) : step s = .next s.drive.emit := by
  have ha := State.acceptEnabled_of_busy (State.phase_ne_idle_of_full hi hf)
  have he : s.drive.emitEnabled = true := by rw [State.emitEnabled, hf, hready, Bool.and_self]
  simp [step_eq_act, State.act_of_live hl, ha, he]

/-- Settles O16: the step is EMIT, whose two cases are whether the byte is the frame's last. -/
theorem emitFollowsItsRule : Obligations.EmitFollowsItsRule := by
  intro s hl hi hf hready
  have hstep := step_of_full hl hi hf hready
  refine ⟨fun hlast => ?_, fun hlast => ⟨s.drive.emit, hstep, State.emit_of_last hlast, ?_⟩⟩
  · rw [hstep, State.emit_of_not_last hlast]
    rfl
  · rw [State.emit_of_last hlast]
    simp [evtDone, newEvents]

/-! ### The transitions of `phase` (R74) -/

theorem lengthRefusal_eq_none_iff {c : Config} {len : BitVec 8} :
    lengthRefusal c len = none ↔ c.admitsLen len = true := by
  refine ⟨admitsLen_of_lengthRefusal, fun h => ?_⟩
  obtain ⟨hmin, hmax⟩ : c.minDataPayload ≤ len.toNat ∧ len.toNat ≤ c.maxDataPayload := by
    simpa [Config.admitsLen] using h
  rw [lengthRefusal, if_neg hmax.not_gt, if_neg hmin.not_gt]

theorem wellFormed_iff {c : Config} {i : Instr} : i.wellFormed c = true ↔ acceptRefusal c i = none := by
  cases i with
  | data f => exact lengthRefusal_eq_none_iff.symm
  | _ => simp [Instr.wellFormed, acceptRefusal]

/-- The block accepts the descriptors that `Encode` does not refuse. -/
theorem descAccepted_iff {c : Config} {d : Desc} (p : List Byte) :
    descAccepted c d = true ↔ ∃ w, encodeFrame c d p = .ok w := by
  unfold descAccepted encodeFrame
  cases decode d with
  | error e => cases e; simp
  | ok i =>
    simp only [wellFormed_iff]
    cases acceptRefusal c i <;> simp

section Table

variable {u t : State} {k : Latch}

/-! The table's entries, for the levels at which each is read. -/

theorem State.tablePhase_idle {d : Desc} {ds : List Desc} (hl : u.Live) (hp : u.phase = .idle)
    (hv : u.env.pins.cmdValid = true) (hc : u.env.cmds = d :: ds) :
    u.tablePhase k = if descAccepted u.cfg d then .ctrl else .idle := by
  obtain ⟨-, -, hrst, habort⟩ := hl
  simp [State.tablePhase, hrst, habort, hp, hv, hc]

theorem State.tablePhase_not_offered (hl : u.Live) (hp : u.phase = .idle) (ha : u.acceptEnabled = false) :
    u.tablePhase k = .idle := by
  obtain ⟨-, -, hrst, habort⟩ := hl
  cases hc : u.env.cmds with
  | nil => simp [State.tablePhase, hrst, habort, hp, hc]
  | cons d ds =>
    have hv : u.env.pins.cmdValid = false := by
      simpa [State.acceptEnabled, State.canTransfer, State.cmdReady, State.cmdValid, hp, hrst, habort, hc] using ha
    simp [State.tablePhase, hrst, habort, hp, hc, hv]

theorem State.tablePhase_full (hl : u.Live) (hp : u.phase ≠ .idle) (hf : u.outFull = true) :
    u.tablePhase k = if u.env.pins.outReady = true ∧ u.phase = .drain then .idle else u.phase := by
  obtain ⟨-, -, hrst, habort⟩ := hl
  simp [State.tablePhase, hrst, habort, hp, hf]

theorem State.tablePhase_empty (hl : u.Live) (hp : u.phase ≠ .idle) (hf : u.outFull = false) :
    u.tablePhase k = if u.escPend = true then u.phase
      else if u.phase = .payload ∧ u.plValid = false then u.phase else u.advancedPhase k := by
  obtain ⟨-, -, hrst, habort⟩ := hl
  simp [State.tablePhase, hrst, habort, hp, hf]

/-- After the control byte a DATA frame goes to its payload, if it has one. -/
theorem State.succCtrl_eq_advancedPhase (hp : u.phase = .ctrl) : succCtrl k = u.advancedPhase k := by
  have hlen : 0 < k.len.toNat ↔ k.len ≠ 0 := by
    rw [Nat.pos_iff_ne_zero, ← BitVec.toNat_ne_iff_ne]
    rfl
  unfold succCtrl State.advancedPhase
  simp only [hp, hlen]
  cases k.kind <;> simp

/-- ADVANCE moves `phase` as the table says: not at all while it hands out a pending byte. -/
theorem State.advance_phase (hk : u.latch = some k) (hv : u.advanceEnabled = true) (e : u.advance = .next t) :
    t.phase = if u.escPend = true then u.phase else u.advancedPhase k := by
  rcases State.advance_cases hv e with ⟨he, rfl⟩ | ⟨he, hcases⟩
  · simp [he, State.advPending]
  rw [he, if_neg Bool.false_ne_true]
  rcases hcases with ⟨hp, k', hk', rfl⟩ | ⟨hp, k', b, p, hk', -, rfl⟩ | ⟨hp, k', -, rfl⟩ | ⟨hp, k', -, rfl⟩ |
    ⟨hp, rfl⟩ | ⟨hp, rfl⟩ | ⟨hp, rfl⟩
  · obtain rfl : k = k' := Option.some.inj (hk.symm.trans hk')
    exact State.succCtrl_eq_advancedPhase hp
  · obtain rfl : k = k' := Option.some.inj (hk.symm.trans hk')
    simp only [State.advancedPhase, hp]
    rfl
  all_goals
    simp only [State.advancedPhase, hp]
    rfl

/-- Where the invariant holds, the byte in the slot is the frame's last exactly in `DRAIN` (R32). -/
theorem State.Inv.last_iff_drain (hi : u.Inv) (hf : u.outFull = true) : u.outLast = true ↔ u.phase = .drain :=
  ⟨fun h => hi.last_drain h hf, fun h => (hi.drain_flag h).2.1⟩

/-- With an empty slot the block is not in `DRAIN`, where the flag is in it (R32). -/
theorem State.Inv.ne_drain_of_empty (hi : u.Inv) (hf : u.outFull = false) : u.phase ≠ .drain :=
  fun h => by simpa [hf] using (hi.drain_flag h).1

/-- The step at given input levels moves `phase` as the table says: a case for each kind of step. -/
theorem State.act_phase (hi : u.Inv) (hk : u.phase = .idle ∨ u.latch = some k) (h : u.act = .next t) :
    t.phase = u.tablePhase k := by
  cases State.stepCase h with
  | reset hrst e => simp [State.tablePhase, hrst, e]
  | abortIdle hrst habort hp e => simp [State.tablePhase, hrst, habort, hp, e]
  | abort hrst habort hp e => simp [State.tablePhase, hrst, habort, e]
  | start hl ha d ds i hc hd hr e =>
    obtain ⟨hp, -, -, hv⟩ := State.acceptEnabled_facts ha
    have hacc : descAccepted u.cfg d = true := (descAccepted_iff []).2 ⟨_, encodeFrame_of_accepted hd hr []⟩
    rw [State.tablePhase_idle hl hp hv hc, if_pos hacc, e, State.startFrame_phase]
  | refuse hl ha d ds c hc hd e =>
    obtain ⟨hp, -, -, hv⟩ := State.acceptEnabled_facts ha
    have hacc : ¬ descAccepted u.cfg d = true := by simp [descAccepted_iff [], hd]
    rw [State.tablePhase_idle hl hp hv hc, if_neg hacc, e, State.refuse_phase, State.dropCmd_phase, hp]
  | emit hl ha he e =>
    obtain ⟨hf, hready⟩ := State.emitEnabled_facts he
    rw [State.tablePhase_full hl (State.phase_ne_idle_of_full hi hf) hf, e, State.emit_phase]
    simp only [hready, hi.last_iff_drain hf, true_and]
  | advance hl ha he hv e =>
    obtain ⟨hp, hdrain, hf⟩ := State.advanceEnabled_facts hv
    rw [State.tablePhase_empty hl hp hf, State.advance_phase (hk.resolve_left hp) hv e]
    cases hpend : u.escPend with
    | true => rfl
    | false =>
      have hgo : ¬ (u.phase = .payload ∧ u.plValid = false) := fun hwait => by
        rw [(State.advanceEnabled_eq_false_iff hp hdrain hf).2 ⟨hpend, hwait⟩] at hv
        cases hv
      rw [if_neg Bool.false_ne_true, if_neg Bool.false_ne_true, if_neg hgo]
  | wait hl ha he hv e =>
    subst e
    by_cases hp : t.phase = .idle
    · rw [State.tablePhase_not_offered hl hp ha, hp]
    cases hf : t.outFull with
    | true =>
      have hready : t.env.pins.outReady = false := by simpa [State.emitEnabled, hf] using he
      simp [State.tablePhase_full hl hp hf, hready]
    | false =>
      obtain ⟨he, hpay, hv⟩ := (State.advanceEnabled_eq_false_iff hp (hi.ne_drain_of_empty hf) hf).1 hv
      simp [State.tablePhase_empty hl hp hf, he, hpay, hv]

end Table

/-- Settles O24: the step at the input levels moves `phase` by the table, and a latched DATA length is within the
configuration's bounds. -/
theorem phaseMovesOnlyByTheTable : Obligations.PhaseMovesOnlyByTheTable := by
  intro s t k hi hk h
  refine ⟨State.act_phase hi hk h, fun hp hdata hzero => ?_⟩
  obtain ⟨k', hk', hbounds⟩ := hi.latch_of_busy hp
  obtain rfl : k = k' := Option.some.inj ((hk.resolve_left hp).symm.trans hk')
  obtain ⟨hmin, -⟩ := hbounds hdata
  simpa [hzero] using hmin

end Sys2Proof.Machine
end

section
/-! PROOFS. The exceptional steps: a refusal (O13), an abort (O18), and what each step leaves in `err` (O27). -/

namespace Sys2Proof.Machine

/-- The strobes of a step read the events it appended to the history. -/
theorem newEvents_of_append {u t : State} {es : List Event} (h : t.history = u.history ++ es) :
    newEvents u t = es := by
  rw [newEvents, h, List.drop_left]

/-! ### Refusal (R93) -/

/-- ACCEPT turns away the descriptors that `Encode` refuses, with the same code (R77). -/
theorem State.acceptStep_of_refused {u : State} {d : Desc} {ds : List Desc} {p : List Byte} {c : ErrCode}
    (ha : u.acceptEnabled = true) (hc : u.env.cmds = d :: ds) (hd : encodeFrame u.cfg d p = .error c) :
    u.acceptStep = .next (u.dropCmd.refuse c) := by
  obtain ⟨d', ds', hc', hcases⟩ := State.acceptStep_cases ha
  obtain ⟨rfl, rfl⟩ : d = d' ∧ ds = ds' := by simpa [hc] using hc'
  rcases hcases with ⟨i, hdec, hr, -⟩ | ⟨i, c', hdec, hr, e⟩ | ⟨hdec, e⟩
  · rw [encodeFrame_of_accepted hdec hr] at hd
    cases hd
  · obtain rfl : c' = c := by simpa [encodeFrame, hdec, hr] using hd
    exact e
  · obtain rfl : .illegalKind = c := by simpa [encodeFrame, hdec] using hd
    exact e

/-- Settles O13: the step is ACCEPT's refusing half, which writes `err`, records one event and takes the
descriptor. -/
theorem refusalIsPrecise : Obligations.RefusalIsPrecise := by
  intro s d ds c hl hp hv hc hd
  have ha := State.acceptEnabled_of_offer hl hp hv hc
  have hstep := (step_of_acceptEnabled hl ha).trans (State.acceptStep_of_refused ha hc hd)
  have hev : newEvents s.drive (s.drive.dropCmd.refuse c) = [.refused c] := newEvents_of_append rfl
  refine ⟨_, hstep, ?_, ?_, ?_, decide_eq_true hp, rfl, rfl⟩
  · rw [State.dropCmd_of_cons hc]
    rfl
  · rw [evtErr, hev]
    rfl
  · rw [evtDone, hev]
    rfl

/-! ### Abort (R97, R98) -/

theorem State.abortStep_of_idle {u : State} (hp : u.phase = .idle) : u.abortStep = u := if_pos hp

theorem State.abortStep_of_busy {u : State} (hp : u.phase ≠ .idle) :
    u.abortStep = { u with
      phase := .idle, outFull := false, escPend := false, err := .aborted, history := u.history ++ [.aborted] } :=
  if_neg hp

theorem step_of_abort {s : State} (hok : s.cfg.ok = true) (hseen : s.resetSeen = true)
    (hrst : s.drive.env.pins.rst = false) (habort : s.drive.env.pins.abort = true) :
    step s = .next s.drive.abortStep := by
  simp [step_eq_act, State.act, hok, hseen, hrst, habort]

/-- Settles O18: the step is the abort step, whose two cases are whether a frame is in progress. -/
theorem abortDiscardsTheFrame : Obligations.AbortDiscardsTheFrame := by
  intro s hok hseen hrst habort
  have hstep := step_of_abort hok hseen hrst habort
  refine ⟨fun hbusy => ⟨_, hstep, State.abortStep_of_busy hbusy, ?_⟩, fun hidle => ?_⟩
  · rw [State.abortStep_of_busy (u := s.drive) hbusy, evtErr, newEvents_of_append rfl]
    rfl
  · rwa [State.abortStep_of_idle (u := s.drive) hidle] at hstep

/-! ### The value of `err` after a step (R96) -/

/-- Settles O27: a case for each kind of step; only reset, abort and ACCEPT write `err`. -/
theorem errIsWrittenOnlyByAcceptAbortAndReset : Obligations.ErrIsWrittenOnlyByAcceptAbortAndReset := by
  intro s t _ h
  cases State.stepCase h with
  | reset hrst e => rw [e, if_pos hrst, State.resetStep_err]
  | abortIdle hrst habort hp e =>
    rw [State.drive_phase] at hp
    simp [e, hrst, habort, hp]
  | abort hrst habort hp e =>
    rw [ne_eq, State.drive_phase] at hp
    simp [e, hrst, habort, hp]
  | start hl ha d ds i hc hd hr e =>
    obtain ⟨-, -, hrst, habort⟩ := hl
    have henc := encodeFrame_of_accepted hd hr []
    rw [State.drive_cfg] at henc
    simp [e, hrst, habort, ha, hc, henc]
  | refuse hl ha d ds c hc hd e =>
    obtain ⟨-, -, hrst, habort⟩ := hl
    have henc := hd []
    rw [State.drive_cfg] at henc
    simp [e, hrst, habort, ha, hc, henc]
  | emit hl ha he e =>
    obtain ⟨-, -, hrst, habort⟩ := hl
    simp [e, hrst, habort, ha]
  | advance hl ha he hv e =>
    obtain ⟨-, -, hrst, habort⟩ := hl
    simp [State.advance_err hv e, hrst, habort, ha]
  | wait hl ha he hv e =>
    obtain ⟨-, -, hrst, habort⟩ := hl
    simp [e, hrst, habort, ha]

end Sys2Proof.Machine
end

section
/-! PROOFS. The reset step: what it leaves whatever the block holds (O19), and that a run begins with it (O21). -/

namespace Sys2Proof.Machine

/-- Reset comes before every other step, whether or not the block was reset before (R100, R107). -/
theorem step_of_reset {s : State} (hok : s.cfg.ok = true) (hrst : s.drive.env.pins.rst = true) :
    step s = .next s.drive.resetStep := by
  simp [step_eq_act, State.act, hok, hrst]

theorem step_of_noReset {s : State} (hok : s.cfg.ok = true) (hseen : s.resetSeen = false)
    (hrst : s.drive.env.pins.rst = false) : step s = .refused .noReset := by
  simp [step_eq_act, State.act, hok, hseen, hrst]

/-- The reset step reads the configuration, the history and the environment only (R105). -/
theorem State.resetStep_congr {u v : State} (hcfg : v.cfg = u.cfg) (hhist : v.history = u.history)
    (henv : v.env = u.env) : v.resetStep = u.resetStep := by
  simp only [State.resetStep, State.record, hcfg, hhist, henv]

/-- Settles O19: the step is the reset step, which writes every element but the configuration and the environment and
records one event, `reset`, that fires neither strobe. -/
theorem resetFollowsItsRule : Obligations.ResetFollowsItsRule := by
  intro s hok hrst
  have hev : newEvents s.drive s.drive.resetStep = [.reset] := newEvents_of_append (State.resetStep_history _)
  refine ⟨s.drive.resetStep, step_of_reset hok hrst, rfl, ?_, ?_⟩
  · rw [evtDone, hev]
    rfl
  · rw [evtErr, hev]
    rfl

/-- Settles O21: without reset the step is refused; with it the two blocks, driven alike, take the same reset step. -/
theorem runBeginsWithReset : Obligations.RunBeginsWithReset := by
  refine ⟨fun s hok hseen hrst => step_of_noReset hok hseen hrst, fun s s' hok hrst hcfg hhist henv => ?_⟩
  have hdrive : s'.drive.env = s.drive.env := congrArg Env.drive henv
  have hstep' : step s' = .next s'.drive.resetStep := step_of_reset (hcfg ▸ hok) (hdrive ▸ hrst)
  rw [State.resetStep_congr (u := s.drive) (v := s'.drive) hcfg hhist hdrive] at hstep'
  exact ⟨s.drive.resetStep, step_of_reset hok hrst, hstep', rfl, rfl, rfl⟩

end Sys2Proof.Machine
end

section
/-! PROOFS. The descriptor both ways (O1, O2), and what every step keeps (O34, O36, O37): the lemmas stand above. -/

namespace Sys2Proof.Machine

/-- Settles O1: `KIND` and every field, the reserved bits included, are read back from the bits they were packed to. -/
theorem encodedCommandDecodesToItself : Obligations.EncodedCommandDecodesToItself := decode_encode

/-- Settles O2: the nine slices `decode` reads cover the descriptor. -/
theorem decodedCommandEncodesToItsDescriptor : Obligations.DecodedCommandEncodesToItsDescriptor :=
  fun _ _ => encode_of_decode

/-- Settles O34: the invariant speaks of no input port, and each kind of step keeps it. -/
theorem stepKeepsTheInvariant : Obligations.StepKeepsTheInvariant := fun _ _ => step_inv

/-- Settles O36: EMIT moves a byte from those to come to those taken, and ADVANCE leaves the wire bytes to come as they
are. -/
theorem stepKeepsTheFrameTrace : Obligations.StepKeepsTheFrameTrace := fun _ _ => step_trace

/-- Settles O37: a byte recorded by a step is the next of the frame in progress, which the trace gives. -/
theorem stepKeepsTheLine : Obligations.StepKeepsTheLine := fun _ _ => step_lineOk

end Sys2Proof.Machine
end

section
/-! PROOFS. The streaming steps compute `Encode`: what ADVANCE and EMIT leave of the frame in progress, whatever the
environment does, and the run of one frame under prompt sources and sink (O51, O52). -/

namespace Sys2Proof.Machine

/-! ### A frame being sent (R42, R78) -/

/-- A frame to send: the configuration, the history before its ACCEPT, the command, and the payload meant for it. -/
structure Sending where
  cfg : Config
  before : List Event
  cmd : Instr
  payload : List Byte

/-- The history right after the frame's ACCEPT. -/
def Sending.start (f : Sending) : List Event := f.before ++ [.accept (encode f.cmd)]

/-- The frame's wire bytes (R57). -/
def Sending.wire (f : Sending) : List Byte := wireFrame f.cfg (latchOf f.cmd) f.payload

/-- The block is sending the frame: `es` is what the history holds since its ACCEPT and `q` the payload bytes still to
read; payload bytes read and to come are the frame's payload, wire bytes taken and to come its wire bytes. -/
structure State.Sends (s : State) (f : Sending) (es : List Event) (q : List Byte) : Prop where
  inv : s.Inv
  busy : s.phase ≠ .idle
  cfg : s.cfg = f.cfg
  latch : s.latch = some (latchOf f.cmd)
  err : s.err = .noError
  history : s.history = f.start ++ es
  inFrame : ∀ e ∈ es, e.inFrame = true
  due : q.length = s.payloadDue
  payload : paysOf es ++ q = f.payload
  wire : lineOf es ++ s.wireToCome (latchOf f.cmd) q = f.wire

/-- The frame is done: `es` is what the history holds between its ACCEPT and its `done`. -/
structure State.HasSent (s : State) (f : Sending) (es : List Event) : Prop where
  cfg : s.cfg = f.cfg
  history : s.history = f.start ++ (es ++ [.done])
  onWire : ∀ e ∈ es, e.onWire = true
  payload : paysOf es = f.payload
  line : lineOf es = f.wire
  outs : outsOf es = f.wire.dropLast.map (fun b => (b, false)) ++ [(f.cfg.k.flag, true)]
  clean : s.Clean
  err : s.err = .noError

/-- ACCEPT begins the frame, with all of its payload and of its wire bytes to come. -/
theorem State.startFrame_sends {s : State} {i : Instr} {p : List Byte} (hi : s.Inv) (hp : s.phase = .idle)
    (hr : acceptRefusal s.cfg i = none) (hfit : payloadFits i p) :
    (s.startFrame i).Sends ⟨s.cfg, s.history, i, p⟩ [] p := by
  obtain ⟨hf, he⟩ := hi.idle_empty hp
  exact
    { inv := State.startFrame_inv hi hp hr
      busy := by simp
      cfg := rfl
      latch := rfl
      err := rfl
      history := by simp [Sending.start]
      inFrame := by simp
      due := hfit
      payload := rfl
      wire := State.wireToCome_start (t := s.startFrame i) rfl rfl rfl hf he }

/-! ### What ADVANCE reads (R36) -/

theorem State.plReady_iff {s : State} :
    s.plReady = true ↔ s.phase = .payload ∧ s.outFull = false ∧ s.escPend = false := by
  simp [State.plReady, and_assoc]

/-- ADVANCE in `PAYLOAD` takes the byte on offer and records it; any other ADVANCE leaves sources and history alone. -/
theorem State.advance_reads {s t : State} (hv : s.advanceEnabled = true) (e : s.advance = .next t) :
    (s.plReady = false ∧ t.env = s.env ∧ t.history = s.history) ∨
    (s.plReady = true ∧ s.plValid = true ∧ ∃ b p, s.env.payload = b :: p ∧
      t.env = { s.env with payload := p } ∧ t.history = s.history ++ [.pay b]) := by
  obtain ⟨hidle, hdrain, hf⟩ := State.advanceEnabled_facts hv
  rcases State.advance_cases hv e with ⟨he, rfl⟩ | ⟨he, ⟨hp, k, _, rfl⟩ | ⟨hp, k, b, p, _, hq, rfl⟩ |
      ⟨hp, k, _, rfl⟩ | ⟨hp, k, _, rfl⟩ | ⟨hp, rfl⟩ | ⟨hp, rfl⟩ | ⟨hp, rfl⟩⟩
  case inr.inr.inl =>
    have hvalid : s.plValid = true := Bool.of_not_eq_false fun hv' => by
      rw [(State.advanceEnabled_eq_false_iff hidle hdrain hf).2 ⟨he, hp, hv'⟩] at hv
      cases hv
    exact .inr ⟨State.plReady_iff.2 ⟨hp, hf, he⟩, hvalid, b, p, hq, by simp [State.advPayload, hq],
      by simp [State.advPayload]⟩
  case inl => exact .inl ⟨by simp [State.plReady, he], rfl, rfl⟩
  all_goals
    refine .inl ⟨by simp [State.plReady, hp], ?_, ?_⟩ <;>
      simp [State.advCtrl, State.advVersion, State.advCode, State.advCrcHi, State.advCrcLo, State.advFlag]

/-- In `PAYLOAD` a payload byte is due (R32). -/
theorem State.payloadDue_pos_of_plReady {s : State} (hi : s.Inv) (h : s.plReady = true) : 0 < s.payloadDue := by
  obtain ⟨hp, -, -⟩ := State.plReady_iff.1 h
  obtain ⟨k, hk, -, hlt⟩ := hi.payload_data hp
  simp only [State.payloadDue, hk, hp]
  omega

/-- Inside a frame with an empty slot ADVANCE waits for a payload byte that is needed and not offered, and for nothing
else. -/
theorem State.advanceEnabled_of_supplied {s : State} (hi : s.Inv) (hp : s.phase ≠ .idle) (hf : s.outFull = false)
    (h : s.plReady = false ∨ s.plValid = true) : s.advanceEnabled = true :=
  Bool.of_not_eq_false fun hv => by
    obtain ⟨he, hpay, hv⟩ := (State.advanceEnabled_eq_false_iff hp (hi.ne_drain_of_empty hf) hf).1 hv
    simp [State.plReady_iff.2 ⟨hpay, hf, he⟩, hv] at h

/-! ### What each step leaves of the frame -/

/-- There is a wire byte to come as long as the frame is in progress. -/
theorem State.wireToCome_ne_nil {s : State} (hi : s.Inv) (hp : s.phase ≠ .idle) (k : Latch) (q : List Byte) :
    s.wireToCome k q ≠ [] := by
  by_cases hd : s.phase = .drain
  · simp [State.wireToCome_drain hi hd]
  · simp [State.wireToCome, hp, hd]

section Sends

variable {s t : State} {f : Sending} {es : List Event} {q : List Byte} (h : s.Sends f es q)
include h

theorem State.Sends.line_length_lt : (lineOf es).length < f.wire.length := by
  rw [← h.wire, List.length_append]
  exact Nat.lt_add_of_pos_right (List.length_pos_iff.2 (State.wireToCome_ne_nil h.inv h.busy _ q))

/-- ADVANCE keeps the frame being sent, if the payload byte it reads, when it reads one, is the frame's next. -/
theorem State.Sends.advance (hv : s.advanceEnabled = true) (e : s.advance = .next t)
    (hoffer : s.plReady = true → s.plValid = true → s.env.payload.head? = q.head?) :
    ∃ pays q', q = pays ++ q' ∧ s.env.payload = pays ++ t.env.payload ∧
      t.env = { s.env with payload := t.env.payload } ∧ t.outFull = true ∧ t.Sends f (es ++ pays.map .pay) q' := by
  obtain ⟨pays, hth, htl, hbusy, hfull, hdue, hpay, hwire⟩ := State.advance_wire h.inv hv e
  have hnext : ∃ q', q = pays ++ q' ∧ t.env = { s.env with payload := t.env.payload } := by
    rcases State.advance_reads hv e with ⟨-, henv, hh⟩ | ⟨hready, hvalid, b, p, hb, henv, hh⟩
    · obtain rfl : pays = [] := by simpa [hh] using hth
      exact ⟨q, rfl, by rw [henv]⟩
    · obtain rfl : pays = [b] := by
        rw [hh, List.append_cancel_left_eq] at hth
        cases pays with
        | nil => cases hth
        | cons c cs => simpa using hth.symm
      obtain ⟨q', rfl⟩ : ∃ q', q = b :: q' := List.head?_eq_some_iff.1 (by
        rw [← hoffer hready hvalid, hb]
        rfl)
      exact ⟨q', rfl, by rw [henv]⟩
  obtain ⟨q', rfl, henv⟩ := hnext
  have hq' : q'.length = t.payloadDue := by
    have := h.due
    rw [hdue, List.length_append] at this
    omega
  refine ⟨pays, q', rfl, hpay, henv, hfull, ?_⟩
  exact
    { inv := State.advance_inv h.inv hv e
      busy := hbusy
      cfg := (State.advance_cfg hv e).trans h.cfg
      latch := htl.trans h.latch
      err := (State.advance_err hv e).trans h.err
      history := by rw [hth, h.history, List.append_assoc]
      inFrame := by
        intro e he
        rcases List.mem_append.1 he with he | he
        · exact h.inFrame e he
        · obtain ⟨b, -, rfl⟩ := List.mem_map.1 he
          rfl
      due := hq'
      payload := by simpa using h.payload
      wire := by simpa [hwire _ q' h.latch hq'] using h.wire }

/-- A byte in the slot is the frame's last exactly when all but one of its wire bytes are taken. -/
theorem State.Sends.last_iff (hf : s.outFull = true) :
    s.outLast = true ↔ (lineOf es).length + 1 = f.wire.length := by
  have hlen : (lineOf es).length + (s.wireToCome (latchOf f.cmd) q).length = f.wire.length := by
    rw [← h.wire, List.length_append]
  cases hL : s.outLast with
  | true => simpa [State.wireToCome_drain h.inv (h.inv.last_drain hL hf)] using hlen
  | false =>
    have hp : s.emit.phase ≠ .idle := by simpa [hL] using h.busy
    have hpos := List.length_pos_iff.2 (State.wireToCome_ne_nil (State.emit_inv h.inv hf) hp (latchOf f.cmd) q)
    rw [State.emit_wire hf h.inv, List.length_cons] at hlen
    simp only [Bool.false_eq_true, false_iff]
    omega

/-- EMIT of a byte that is not the last keeps the frame being sent. -/
theorem State.Sends.emit (hf : s.outFull = true) (hL : s.outLast = false) :
    s.emit.Sends f (es ++ [.out s.outByte false]) q :=
  { inv := State.emit_inv h.inv hf
    busy := by simpa [hL] using h.busy
    cfg := h.cfg
    latch := h.latch
    err := h.err
    history := by simp [hL, h.history]
    inFrame := by simpa [or_imp, forall_and, Event.inFrame] using h.inFrame
    due := h.due.trans (State.emit_payloadDue hL).symm
    payload := by simpa using h.payload
    wire := by simpa [← State.emit_wire hf h.inv] using h.wire }

/-- EMIT of the flag ends the frame. -/
theorem State.Sends.emit_last (hf : s.outFull = true) (hL : s.outLast = true) :
    s.emit.HasSent f (es ++ [.out f.cfg.k.flag true]) ∧ q = [] := by
  have hd : s.phase = .drain := h.inv.last_drain hL hf
  obtain ⟨-, -, hb⟩ := h.inv.drain_flag hd
  obtain rfl : q = [] := List.length_eq_zero_iff.1 (h.due.trans (State.payloadDue_drain hd))
  have hline : lineOf es ++ [f.cfg.k.flag] = f.wire := by
    rw [← h.wire, State.wireToCome_drain h.inv hd, h.cfg]
  refine ⟨?_, rfl⟩
  exact
    { cfg := h.cfg
      history := by simp [hL, h.history, hb, h.cfg]
      onWire := by
        simpa [or_imp, forall_and, Event.onWire] using fun e he => e.onWire_of_inFrame (h.inFrame e he)
      payload := by simpa using h.payload
      line := by simpa using hline
      outs := by simp [← hline, outsOf_of_inFrame h.inFrame]
      clean := ⟨by simp [hL], rfl, h.inv.escPend_of_drain hd⟩
      err := h.err }

end Sends

/-! ### The run of one frame under prompt sources and sink (R78, R112) -/

/-- The environment of `Env.Prompt` that has these descriptors and payload bytes to offer. -/
def Env.offering (ds : List Desc) (p : List Byte) : Env where
  pins := .prompt
  cmds := ds
  payload := p
  script := []

theorem Env.Prompt.eq_offering {e : Env} (h : e.Prompt) : e = .offering e.cmds e.payload := by
  cases e
  obtain ⟨rfl, rfl⟩ := h
  rfl

theorem Env.prompt_offering (ds : List Desc) (p : List Byte) : (Env.offering ds p).Prompt := ⟨rfl, rfl⟩

/-- A prompt environment asserts neither reset nor abort. -/
theorem State.live_of_prompt {s : State} (hok : s.cfg.ok = true) (hseen : s.resetSeen = true)
    (he : s.env.Prompt) : s.Live := by
  obtain ⟨hpins, -⟩ := he
  exact ⟨hok, hseen, by rw [hpins]; rfl, by rw [hpins]; rfl⟩

theorem State.Live.abort_released {s : State} (h : s.Live) : s.env.pins.abort = false := h.2.2.2

theorem State.Clean.inv {s : State} (h : s.Clean) : s.Inv := State.inv_of_idle h.1 h.2.1 h.2.2

theorem run_snoc {n : Nat} {s t u : State} (h : Host.Core.run core n s = .next t) (ht : step t = .next u) :
    Host.Core.run core (n + 1) s = .next u := by
  rw [run_add h, run_succ ht]
  rfl

/-- A prompt sink takes the byte in the slot at once. -/
theorem step_of_full_prompt {s : State} (hl : s.Live) (hi : s.Inv) (hf : s.outFull = true) (hpr : s.env.Prompt) :
    step s = .next s.emit := by
  have hdrive : s.drive = s := State.drive_of_no_script hpr.2
  rw [step_of_full (by rwa [hdrive]) (by rwa [hdrive]) (by rwa [hdrive]) (by rw [hdrive, hpr.1]; rfl), hdrive]

/-- A live block stays live under a prompt environment. -/
theorem State.Live.step {s t : State} (hl : s.Live) (h : step s = .next t) (he : t.env.Prompt) : t.Live := by
  obtain ⟨hcfg, hseen⟩ := State.act_keeps h
  obtain ⟨hok, hs, -, -⟩ := hl
  exact State.live_of_prompt (by rw [hcfg]; exact hok) (hseen hs) he

/-- ACCEPT begins the frame of a command that no check refuses (R71). -/
theorem State.acceptStep_of_accepted {u : State} {d : Desc} {ds : List Desc} {i : Instr} (ha : u.acceptEnabled = true)
    (hc : u.env.cmds = d :: ds) (hd : decode d = .ok i) (hr : acceptRefusal u.cfg i = none) :
    u.acceptStep = .next (u.dropCmd.startFrame i) := by
  obtain ⟨ht, -⟩ : u.canTransfer = true ∧ u.cmdValid = true := by simpa [State.acceptEnabled] using ha
  have hr' : acceptRefusal u.dropCmd.cfg i = none := hr
  simp only [State.acceptStep, hc, hd, exec_eq, hr']
  exact State.transfer_of_canTransfer (s := u.dropCmd) ht _

/-- The frame after `j` steps of ADVANCE and EMIT in turn: half as many bytes are taken, and one is in the slot after an
odd number of steps. -/
structure State.Streams (s : State) (f : Sending) (ds : List Desc) (rest : List Byte) (j : Nat) : Prop where
  live : s.Live
  slot : s.outFull = true ↔ j % 2 = 1
  sends : ∃ es q, s.Sends f es q ∧ s.env = .offering ds (q ++ rest) ∧ (lineOf es).length = j / 2

section Prompt

variable {s : State} {f : Sending} {ds : List Desc} {rest : List Byte} {j : Nat}

/-- The step after an even number is ADVANCE: the sources are prompt, so that it never waits. -/
theorem State.Streams.advance (h : s.Streams f ds rest j) (heven : j % 2 = 0) :
    ∃ t, step s = .next t ∧ t.Streams f ds rest (j + 1) := by
  obtain ⟨hlive, hslot, es, q, hs, henv, hlen⟩ := h
  have hf : s.outFull = false := by simpa [heven] using hslot
  have hdrive : s.drive = s := State.drive_of_no_script (by rw [henv]; rfl)
  have hq : s.plReady = true → q ≠ [] := fun hr hq => by
    have := State.payloadDue_pos_of_plReady hs.inv hr
    rw [← hs.due, hq] at this
    exact absurd this (by simp)
  have hsupplied : s.plReady = false ∨ s.plValid = true := by
    cases hr : s.plReady with
    | false => exact .inl rfl
    | true => exact .inr (by simp [State.plValid, henv, Env.offering, Pins.prompt, hq hr])
  have hv := State.advanceEnabled_of_supplied hs.inv hs.busy hf hsupplied
  obtain ⟨t, ht⟩ := State.advance_ok hs.inv hv
  have hstep : step s = .next t := by
    rw [step_of_advanceEnabled (by rwa [hdrive]) (by rwa [hdrive]), hdrive, ht]
  have hoffer : s.plReady = true → s.plValid = true → s.env.payload.head? = q.head? := fun hr _ => by
    rw [henv]
    exact List.head?_append_of_ne_nil q (hq hr)
  obtain ⟨pays, q', rfl, hpay, htenv, hfull, hts⟩ := hs.advance hv ht hoffer
  have hrest : t.env.payload = q' ++ rest := by simpa [henv, Env.offering] using hpay.symm
  rw [hrest, henv] at htenv
  refine ⟨t, hstep, hlive.step hstep (htenv ▸ Env.prompt_offering ds _), ?_, _, q', hts, htenv, ?_⟩
  · simp only [hfull, true_iff]; omega
  · rw [lineOf_append, lineOf_map_pay, List.append_nil, hlen]; omega

/-- The step after an odd number, unless it is the frame's last, is EMIT of a byte that is not the flag. -/
theorem State.Streams.emit (h : s.Streams f ds rest j) (hodd : j % 2 = 1) (hj : j + 1 < 2 * f.wire.length) :
    ∃ t, step s = .next t ∧ t.Streams f ds rest (j + 1) := by
  obtain ⟨hlive, hslot, es, q, hs, henv, hlen⟩ := h
  have hf : s.outFull = true := hslot.2 hodd
  have hL : s.outLast = false := Bool.of_not_eq_true fun hL => by
    have := (hs.last_iff hf).1 hL
    omega
  have hprompt : s.env.Prompt := henv ▸ Env.prompt_offering ds _
  have hstep := step_of_full_prompt hlive hs.inv hf hprompt
  refine ⟨s.emit, hstep, hlive.step hstep hprompt, ?_, _, q, hs.emit hf hL, henv, ?_⟩
  · rw [State.emit_outFull]; simp; omega
  · rw [lineOf_append, List.length_append, hlen]; simp; omega

/-- The last of the frame's steps is EMIT of the flag, which ends the frame. -/
theorem State.Streams.last (h : s.Streams f ds rest j) (hj : j + 1 = 2 * f.wire.length) :
    ∃ t es, step s = .next t ∧ t.HasSent f es ∧ t.Live ∧ t.env = .offering ds rest := by
  obtain ⟨hlive, hslot, es, q, hs, henv, hlen⟩ := h
  have hf : s.outFull = true := hslot.2 (by omega)
  obtain ⟨hsent, rfl⟩ := hs.emit_last hf ((hs.last_iff hf).2 (by omega))
  have hprompt : s.env.Prompt := henv ▸ Env.prompt_offering ds _
  have hstep := step_of_full_prompt hlive hs.inv hf hprompt
  exact ⟨s.emit, _, hstep, hsent, hlive.step hstep hprompt, henv⟩

end Prompt

section FrameRun

variable {s : State} {d : Desc} {ds : List Desc} {i : Instr} {p rest : List Byte} (hl : s.Live) (hcl : s.Clean)
  (hpr : s.env.Prompt) (hc : s.env.cmds = d :: ds) (hpay : s.env.payload = p ++ rest) (hd : decode d = .ok i)
  (hr : acceptRefusal s.cfg i = none) (hfit : payloadFits i p)
include hl hcl hpr hc hpay hd hr hfit

/-- A block between frames takes the descriptor offered and begins its frame. -/
theorem step_starts_streaming :
    ∃ t, step s = .next t ∧ t.Streams ⟨s.cfg, s.history, i, p⟩ ds rest 0 := by
  have hdrive : s.drive = s := State.drive_of_no_script hpr.2
  have ha : s.acceptEnabled = true := State.acceptEnabled_of_offer hl hcl.1 (by rw [hpr.1]; rfl) hc
  have hstep : step s = .next (s.dropCmd.startFrame i) := by
    rw [step_of_acceptEnabled (by rwa [hdrive]) (by rwa [hdrive]), hdrive, State.acceptStep_of_accepted ha hc hd hr]
  have henv : (s.dropCmd.startFrame i).env = .offering ds (p ++ rest) := by
    rw [State.startFrame_env, State.dropCmd_env, hpr.eq_offering]
    simp [Env.offering, hc, hpay]
  exact ⟨_, hstep,
    { live := hl.step hstep (henv ▸ Env.prompt_offering ds _)
      slot := by simp [hcl.2.1]
      sends := ⟨[], p, State.startFrame_sends (s := s.dropCmd) (State.Clean.inv hcl) hcl.1 hr hfit, henv, rfl⟩ }⟩

/-- After ACCEPT and `j` more steps, fewer than two a byte, the frame is being sent (R112). -/
theorem run_streams {j : Nat} (hj : j < 2 * (wireFrame s.cfg (latchOf i) p).length) :
    ∃ t, Host.Core.run core (1 + j) s = .next t ∧ t.Streams ⟨s.cfg, s.history, i, p⟩ ds rest j := by
  induction j with
  | zero =>
    obtain ⟨t, hstep, ht⟩ := step_starts_streaming hl hcl hpr hc hpay hd hr hfit
    exact ⟨t, run_succ hstep, ht⟩
  | succ j ih =>
    obtain ⟨t, hrun, ht⟩ := ih (by omega)
    obtain ⟨u, hstep, hu⟩ : ∃ u, step t = .next u ∧ u.Streams ⟨s.cfg, s.history, i, p⟩ ds rest (j + 1) := by
      rcases Nat.mod_two_eq_zero_or_one j with heven | hodd
      · exact ht.advance heven
      · exact ht.emit hodd hj
    exact ⟨u, run_snoc hrun hstep, hu⟩

/-- After ACCEPT and two steps a byte the frame is done, and what lay behind it on both sources is still on offer. -/
theorem run_frame :
    ∃ t es, Host.Core.run core (1 + 2 * (wireFrame s.cfg (latchOf i) p).length) s = .next t ∧
      t.HasSent ⟨s.cfg, s.history, i, p⟩ es ∧ t.Live ∧ t.env = .offering ds rest := by
  have hpos : 0 < (wireFrame s.cfg (latchOf i) p).length := by simp [wireFrame]
  obtain ⟨n, hn⟩ : ∃ n, 2 * (wireFrame s.cfg (latchOf i) p).length = n + 1 := ⟨_, (Nat.succ_pred (by omega)).symm⟩
  obtain ⟨t, hrun, ht⟩ := run_streams hl hcl hpr hc hpay hd hr hfit (j := n) (by omega)
  obtain ⟨u, es, hstep, hu⟩ := ht.last hn.symm
  exact ⟨u, es, by rw [hn]; exact run_snoc hrun hstep, hu⟩

end FrameRun

/-- Settles O51: the run of one frame ends with the frame done. -/
theorem streamingComputesEncode : Obligations.StreamingComputesEncode := by
  intro s d ds i p rest w hl hcl hpr hc hpay hd hfit henc
  obtain ⟨hr, rfl⟩ := wireFrame_of_encodeFrame hd henc
  obtain ⟨t, es, hrun, hsent, -, henv⟩ := run_frame hl hcl hpr hc hpay hd hr hfit
  obtain ⟨hidle, hempty, -⟩ := hsent.clean
  refine ⟨t, es, hrun, ?_, hsent.onWire, hsent.payload, hsent.outs, hsent.line, hidle, hempty, hsent.err,
    by rw [henv]; rfl, by rw [henv]; rfl⟩
  simpa [Sending.start, encode_of_decode hd] using hsent.history

/-- Settles O52: until its last step the run is inside the frame, with a byte in the slot after every odd number of
steps. -/
theorem advanceAndEmitAlternate : Obligations.AdvanceAndEmitAlternate := by
  intro s d ds i p rest w j hl hcl hpr hc hpay hd hfit henc hj
  obtain ⟨hr, rfl⟩ := wireFrame_of_encodeFrame hd henc
  obtain ⟨t, hrun, ht⟩ := run_streams hl hcl hpr hc hpay hd hr hfit hj
  obtain ⟨es, q, hsends, -, -⟩ := ht.sends
  exact ⟨t, hrun, decide_eq_true hsends.busy, ht.slot⟩

end Sys2Proof.Machine
end

section
/-! PROOFS. The datapath's functions: the CRC (O39, O40, O41), the randomizer (O42, O43), stuffing (O44) and the control
bytes (O45). -/

namespace Sys2Proof.Machine

/-! ### The CRC (R63, R64, R83) -/

section Crc

variable (poly : Word16)

/-- Shifting out a 1 adds the polynomial; over the sum of two registers the two additions cancel. -/
theorem crcBit_xor (c c' : Word16) : crcBit poly (c ^^^ c') = crcBit poly c ^^^ crcBit poly c' := by
  unfold crcBit
  rw [BitVec.getLsbD_xor, BitVec.shiftLeft_xor_distrib]
  cases c.getLsbD 15 <;> cases c'.getLsbD 15
  · rfl
  · simp [BitVec.xor_assoc]
  · simp [BitVec.xor_assoc, BitVec.xor_comm poly]
  · simp only [Bool.xor_self, Bool.false_eq_true, if_false, if_true]
    rw [BitVec.xor_assoc, ← BitVec.xor_assoc poly, BitVec.xor_comm poly, BitVec.xor_assoc (c' <<< 1), BitVec.xor_self,
      BitVec.xor_zero]

theorem crcBits_xor (n : Nat) (c c' : Word16) : crcBits poly n (c ^^^ c') = crcBits poly n c ^^^ crcBits poly n c' := by
  induction n generalizing c c' with
  | zero => rfl
  | succ n ih => rw [crcBits, crcBit_xor, ih]; rfl

/-- While only zeros are shifted out the polynomial plays no part. -/
theorem crcBits_of_lt (n : Nat) (hn : n ≤ 16) (c : Word16) (hc : c.toNat < 2 ^ (16 - n)) :
    crcBits poly n c = c <<< n := by
  induction n generalizing c with
  | zero => simp [crcBits]
  | succ n ih =>
    have hle : 2 ^ (16 - (n + 1)) ≤ 2 ^ 15 := Nat.pow_le_pow_right (by omega) (by omega)
    have htop : c.getLsbD 15 = false := by
      rw [← BitVec.testBit_toNat]
      exact Nat.testBit_lt_two_pow (by omega)
    have hshift : (c <<< 1).toNat = c.toNat * 2 := by
      rw [BitVec.toNat_shiftLeft, Nat.shiftLeft_eq, pow_one]
      exact Nat.mod_eq_of_lt (by omega)
    have hpow : 2 ^ (16 - n) = 2 ^ (16 - (n + 1)) * 2 := by
      rw [← pow_succ]
      congr 1
      omega
    have hstep : crcBit poly c = c <<< 1 := by rw [crcBit, htop]; rfl
    rw [crcBits, hstep, ih (by omega) _ (by omega), ← BitVec.shiftLeft_add, Nat.add_comm]

end Crc

/-- Settles O39: the check value is one evaluation of the model; over no byte the register keeps its initial value. -/
theorem crcCheckValue : Obligations.CrcCheckValue := ⟨by decide +kernel, fun _ => rfl⟩

/-- Settles O40: the byte is added to the register, and each of the eight bits is linear. -/
theorem crcStepIsLinear : Obligations.CrcStepIsLinear := by
  intro k c c' b b'
  have hin : (c ^^^ c') ^^^ ((b ^^^ b').zeroExtend 16 <<< 8) =
      (c ^^^ (b.zeroExtend 16 <<< 8)) ^^^ (c' ^^^ (b'.zeroExtend 16 <<< 8)) := by
    simp only [BitVec.zeroExtend, BitVec.setWidth_xor, BitVec.shiftLeft_xor_distrib]
    ac_rfl
  rw [crcStep, hin, crcBits_xor]
  rfl

/-- The register's own high byte cancels it: what is left is the low byte, moved up. -/
theorem crcStep_crcHigh (k : Constants) (x : Word16) : crcStep k x (crcHigh x) = (crcLow x).zeroExtend 16 <<< 8 := by
  have hlow : x ^^^ ((crcHigh x).zeroExtend 16 <<< 8) = (crcLow x).zeroExtend 16 := by
    ext i hi
    by_cases h8 : i < 8
    · simp [crcHigh, crcLow, h8, BitVec.getLsbD_eq_getElem hi]
    · have hhigh : i - 8 < 8 := by omega
      simp [crcHigh, crcLow, h8, hhigh, show 8 + (i - 8) = i by omega, BitVec.getLsbD_eq_getElem hi]
  have hlt : ((crcLow x).zeroExtend 16).toNat < 2 ^ 8 := by
    rw [BitVec.toNat_setWidth]
    exact (Nat.mod_le _ _).trans_lt (crcLow x).isLt
  rw [crcStep, hlow]
  exact crcBits_of_lt _ 8 (by omega) _ hlt

/-- A register that holds one byte, moved up, is cancelled by that byte. -/
theorem crcStep_shifted (k : Constants) (b : Byte) : crcStep k (b.zeroExtend 16 <<< 8) b = 0 := by
  rw [crcStep, BitVec.xor_self, crcBits_of_lt _ 8 (by omega) _ (by simp), BitVec.zero_shiftLeft]
  rfl

/-- Settles O41: the two CRC bytes, high byte first, cancel the register one after the other. -/
theorem crcOverItsOwnBytesIsZero : Obligations.CrcOverItsOwnBytesIsZero := by
  intro k q
  rw [crc16, crcFrom_append, crc16, crcBytes, crcFrom_cons, crcFrom_cons, crcStep_crcHigh, crcStep_shifted, crcFrom_nil]

/-! ### The randomizer (R66, R67) -/

theorem rnd_eq_iterate (k : Constants) (n : Nat) : rnd k n = (lfsrStep k)^[n] k.lfsrSeed := by
  induction n with
  | zero => rfl
  | succ n ih => rw [Function.iterate_succ_apply', ← ih]; rfl

/-- With a tap that has the top bit, which the shift clears, the randomizer reaches zero from zero only. -/
theorem lfsrStep_ne_zero {k : Constants} (htap : 128 ≤ k.lfsrTap.toNat) {r : Byte} (hr : r ≠ 0) : lfsrStep k r ≠ 0 := by
  have hshift : (r >>> 1).toNat = r.toNat / 2 := BitVec.toNat_ushiftRight r 1
  have hlt : r.toNat < 256 := r.isLt
  unfold lfsrStep
  split
  next =>
    intro h
    rw [BitVec.xor_eq_zero_iff.1 h] at hshift
    omega
  next hbit =>
    intro h
    rw [h] at hshift
    have heven : r.toNat % 2 = 0 := by
      have hbit : r.toNat.testBit 0 = false := (BitVec.testBit_toNat r).trans (Bool.of_not_eq_true hbit)
      simpa [Nat.testBit_zero] using hbit
    exact hr (BitVec.eq_of_toNat_eq (by simp at hshift ⊢; omega))

theorem rnd_ashv2_periodic : Function.IsPeriodicPt (lfsrStep .ashv2) 255 Constants.ashv2.lfsrSeed := by
  decide +kernel

/-- Settles O42: the seed has period 255, and no smaller one: the period would divide 255 and so 85, 51 or 15. -/
theorem randomizerSequenceHasPeriod255 : Obligations.RandomizerSequenceHasPeriod255 := by
  refine ⟨rfl, fun n => ?_, fun n => ?_, fun m hpos hlt hm => ?_⟩
  · induction n with
    | zero => decide
    | succ n ih => exact lfsrStep_ne_zero (by decide) ih
  · rw [rnd_eq_iterate, rnd_eq_iterate, Function.iterate_add_apply, rnd_ashv2_periodic]
  · have hper : Function.IsPeriodicPt (lfsrStep .ashv2) m Constants.ashv2.lfsrSeed := by
      rw [rnd_eq_iterate] at hm
      exact hm
    have hgcd := hper.gcd rnd_ashv2_periodic
    have hg : m.gcd 255 < 255 := (Nat.gcd_le_left 255 hpos).trans_lt hlt
    have hdvd : ∀ g < 255, g ∣ 255 → g ∣ 85 ∨ g ∣ 51 ∨ g ∣ 15 := by decide +kernel
    rcases hdvd _ hg (Nat.gcd_dvd_right m 255) with h | h | h
    · exact absurd (hgcd.trans_dvd h) (by decide +kernel)
    · exact absurd (hgcd.trans_dvd h) (by decide +kernel)
    · exact absurd (hgcd.trans_dvd h) (by decide +kernel)

/-- The randomizer register before byte `i` is that many steps on, whatever the bytes. -/
theorem getElem?_randomizeFrom (k : Constants) (n : Nat) (p : List Byte) (i : Nat) :
    (randomizeFrom k (rnd k n) p)[i]? = p[i]?.map (fun b => b ^^^ rnd k (n + i)) := by
  induction p generalizing n i with
  | nil => rfl
  | cons b p ih =>
    cases i with
    | zero => rfl
    | succ i =>
      have := ih (n + 1) i
      rw [show n + 1 + i = n + (i + 1) by omega] at this
      rw [randomizeFrom_cons, List.getElem?_cons_succ, List.getElem?_cons_succ]
      exact this

theorem getElem?_randomize (k : Constants) (p : List Byte) (i : Nat) :
    (randomize k p)[i]? = p[i]?.map (fun b => b ^^^ rnd k i) := by
  have := getElem?_randomizeFrom k 0 p i
  rwa [Nat.zero_add] at this

/-- Settles O43: the register before byte `i` is `rnd[i]`, and XOR with it twice gives the byte back. -/
theorem randomizationXorsTheSequence : Obligations.RandomizationXorsTheSequence := by
  intro k p
  refine ⟨randomizeFrom_length k _ p, fun i hi => ?_, randomize_randomize k p⟩
  rw [getElem?_randomize, List.getElem?_eq_getElem hi, Option.map_some]

/-- The payload XORed with the sequence, byte by byte. -/
theorem zipWith_rnd_eq_randomize (k : Constants) (p : List Byte) :
    (List.range p.length).zipWith (fun i b => b ^^^ rnd k i) p = randomize k p := by
  refine List.ext_getElem? fun i => ?_
  rw [getElem?_randomize, List.getElem?_zipWith]
  by_cases hi : i < p.length
  · simp [hi]
  · simp [hi]

/-! ### Stuffing (R68) -/

/-- Settles O44: the six reserved bytes by evaluation, any other byte since it is not among them. -/
theorem reservedBytesAreEscaped : Obligations.ReservedBytesAreEscaped := by
  refine ⟨rfl, rfl, rfl, rfl, rfl, rfl, fun u hflag hesc hxon hxoff hsub hcan => ?_, stuff_append _⟩
  have hres : isReserved .ashv2 u = false := by
    simpa [isReserved, Constants.ashv2] using And.intro hflag ⟨hesc, hxon, hxoff, hsub, hcan⟩
  rw [stuffByte, hres]
  rfl

/-! ### The control bytes (R52 to R55, R61) -/

/-- The concatenation of R52 as shifts and ORs. -/
theorem dataCtrl_eq (frm : SeqNum) (retx : Bool) (ack : SeqNum) :
    dataCtrl frm retx ack = (frm.zeroExtend 8 <<< 4) ||| (if retx then 0x08 else 0x00) ||| ack.zeroExtend 8 := by
  revert frm retx ack
  decide

theorem ackCtrl_eq (nrdy : Bool) (ack : SeqNum) :
    ackCtrl nrdy ack = 0x80 ||| (if nrdy then 0x08 else 0x00) ||| ack.zeroExtend 8 := by
  revert nrdy ack
  decide

theorem nakCtrl_eq (nrdy : Bool) (ack : SeqNum) :
    nakCtrl nrdy ack = 0xA0 ||| (if nrdy then 0x08 else 0x00) ||| ack.zeroExtend 8 := by
  revert nrdy ack
  decide

/-- A byte that R61 lets a control byte be. -/
def EmittedCtrl (b : Byte) : Prop :=
  ¬(0x90 ≤ b.toNat ∧ b.toNat ≤ 0x9F) ∧ ¬(0xB0 ≤ b.toNat ∧ b.toNat ≤ 0xBF) ∧ ¬(0xC3 ≤ b.toNat)

theorem emittedCtrl_data (frm : SeqNum) (retx : Bool) (ack : SeqNum) : EmittedCtrl (dataCtrl frm retx ack) := by
  have hlt : (dataCtrl frm retx ack).toNat < 0x80 := by
    revert frm retx ack
    decide
  unfold EmittedCtrl
  omega

theorem emittedCtrl_ack (nrdy : Bool) (ack : SeqNum) : EmittedCtrl (ackCtrl nrdy ack) := by
  have hlt : (ackCtrl nrdy ack).toNat < 0x90 := by
    revert nrdy ack
    decide
  unfold EmittedCtrl
  omega

theorem emittedCtrl_nak (nrdy : Bool) (ack : SeqNum) : EmittedCtrl (nakCtrl nrdy ack) := by
  have hbounds : 0xA0 ≤ (nakCtrl nrdy ack).toNat ∧ (nakCtrl nrdy ack).toNat < 0xB0 := by
    revert nrdy ack
    decide
  unfold EmittedCtrl
  omega

theorem emittedCtrl_ctrlByte (k : Latch) : EmittedCtrl (ctrlByte k) := by
  unfold ctrlByte
  cases k.kind with
  | data => exact emittedCtrl_data ..
  | ack => exact emittedCtrl_ack ..
  | nak => exact emittedCtrl_nak ..
  | rst => simp [EmittedCtrl, rstCtrl]
  | rstack => simp [EmittedCtrl, rstackCtrl]
  | error => simp [EmittedCtrl, errorCtrl]

/-- Settles O45: each kind's concatenation is the sum of its shifted fields, and its top bits bound its values. -/
theorem controlBytesHaveTheirLayout : Obligations.ControlBytesHaveTheirLayout := by
  intro k
  refine ⟨fun h => ?_, fun h => ?_, fun h => ?_, fun h => ?_, fun h => ?_, fun h => ?_, emittedCtrl_ctrlByte k⟩ <;>
    rw [ctrlByte, h]
  · exact dataCtrl_eq ..
  · exact ackCtrl_eq ..
  · exact nakCtrl_eq ..
  all_goals rfl

end Sys2Proof.Machine
end

section
/-! PROOFS. `Encode`: it reads the used fields only (O47), what the retransmit flag changes (O48), and which bytes a
frame holds (O49). -/

namespace Sys2Proof.Machine

/-- A descriptor that `Encode` answers with a frame decodes to a command that no check refuses. -/
theorem accepted_of_encodeFrame {c : Config} {d : Desc} {p w : List Byte} (h : encodeFrame c d p = .ok w) :
    ∃ i, decode d = .ok i ∧ acceptRefusal c i = none ∧ w = wireFrame c (latchOf i) p := by
  cases hd : decode d with
  | error e => cases e; simp [encodeFrame, hd] at h
  | ok i => exact ⟨i, rfl, wireFrame_of_encodeFrame hd h⟩

/-! ### The fields `Encode` reads (R50, R79) -/

/-- `Encode` depends on the refusal of the command and on the body of its frame. -/
theorem encodeFrame_congr {c : Config} {i j : Instr} {p : List Byte} (hr : acceptRefusal c i = acceptRefusal c j)
    (hb : frameBody c (latchOf i) p = frameBody c (latchOf j) p) :
    encodeFrame c (encode i) p = encodeFrame c (encode j) p := by
  simp only [encodeFrame, decode_encode, hr, wireFrame, unstuffedFrame, hb]

/-- Settles O47: for each kind the length check and the body read the used fields only. -/
theorem encodeIgnoresUnusedFields : Obligations.EncodeIgnoresUnusedFields := by
  intro c i j p h
  cases i <;> cases j
  case data.data f g =>
    obtain ⟨hfrm, hack, hretx, hlen⟩ := h
    exact encodeFrame_congr (by simp only [acceptRefusal, hlen])
      (congrArg (· :: randomize c.k p)
        (show dataCtrl f.frm f.retx f.ack = dataCtrl g.frm g.retx g.ack by rw [hfrm, hretx, hack]))
  case ack.ack f g =>
    obtain ⟨hack, hnrdy⟩ := h
    exact encodeFrame_congr rfl (show [ackCtrl f.nrdy f.ack] = [ackCtrl g.nrdy g.ack] by rw [hack, hnrdy])
  case nak.nak f g =>
    obtain ⟨hack, hnrdy⟩ := h
    exact encodeFrame_congr rfl (show [nakCtrl f.nrdy f.ack] = [nakCtrl g.nrdy g.ack] by rw [hack, hnrdy])
  case rst.rst f g => exact encodeFrame_congr rfl rfl
  case rstack.rstack f g =>
    obtain ⟨hver, hcode⟩ := h
    exact encodeFrame_congr rfl (show [rstackCtrl, f.ver, f.code] = [rstackCtrl, g.ver, g.code] by rw [hver, hcode])
  case error.error f g =>
    obtain ⟨hver, hcode⟩ := h
    exact encodeFrame_congr rfl (show [errorCtrl, f.ver, f.code] = [errorCtrl, g.ver, g.code] by rw [hver, hcode])
  all_goals exact h.elim

/-! ### Different registers stay different (R63) -/

section Injective

variable {k : Constants} (hpoly : k.crcPoly.getLsbD 0 = true)
include hpoly

/-- With the polynomial's constant term the bit shifted out stands in the lowest bit, and none is lost. -/
theorem crcBit_injective : Function.Injective (crcBit k.crcPoly) := by
  have hlow : ∀ c : Word16, (crcBit k.crcPoly c).getLsbD 0 = c.getLsbD 15 := fun c => by
    unfold crcBit
    cases c.getLsbD 15
    · simp
    · simpa using hpoly
  intro c c' h
  have htop : c.getLsbD 15 = c'.getLsbD 15 := by rw [← hlow, ← hlow, h]
  have hshift : c <<< 1 = c' <<< 1 := by
    unfold crcBit at h
    rw [← htop] at h
    split at h
    · exact (BitVec.xor_left_inj _).1 h
    · exact h
  ext i hi
  by_cases h15 : i = 15
  · subst h15
    exact htop
  · have := congrArg (fun x : Word16 => x.getLsbD (i + 1)) hshift
    simpa [show i + 1 < 16 by omega] using this

theorem crcBits_injective (n : Nat) : Function.Injective (crcBits k.crcPoly n) := by
  induction n with
  | zero => exact fun _ _ => id
  | succ n ih => exact ih.comp (crcBit_injective hpoly)

theorem crcStep_register_injective (b : Byte) : Function.Injective (fun c => crcStep k c b) :=
  fun _ _ h => (BitVec.xor_left_inj _).1 (crcBits_injective hpoly 8 h)

theorem crcFrom_injective (q : List Byte) : Function.Injective (fun c => crcFrom k c q) := by
  induction q with
  | nil => exact fun _ _ => id
  | cons b q ih => exact ih.comp (crcStep_register_injective hpoly b)

theorem crcStep_byte_injective (c : Word16) : Function.Injective (crcStep k c) := by
  intro b b' h
  have hshift := (BitVec.xor_right_inj _).1 (crcBits_injective hpoly 8 h)
  ext i hi
  have := congrArg (fun x : Word16 => x.getLsbD (i + 8)) hshift
  simpa [show i + 8 < 16 by omega, hi] using this

/-- Sequences that differ in their first byte only have different CRCs. -/
theorem crc16_ne_of_head_ne {b b' : Byte} (h : b ≠ b') (q : List Byte) : crc16 k (b :: q) ≠ crc16 k (b' :: q) :=
  fun heq => h (crcStep_byte_injective hpoly _ (crcFrom_injective hpoly q heq))

end Injective

/-- The retransmit flag is bit 3 of the control byte (R52). -/
theorem dataCtrl_retx (frm ack : SeqNum) : dataCtrl frm true ack = dataCtrl frm false ack ^^^ 0x08 := by
  revert frm ack
  decide

/-- The unstuffed frame of a DATA command (R56). -/
theorem unstuffedFrame_data (c : Config) (f : Fields) (p : List Byte) :
    unstuffedFrame c (latchOf (.data f)) p =
      dataCtrl f.frm f.retx f.ack :: randomize c.k p ++
        crcBytes (crc16 c.k (dataCtrl f.frm f.retx f.ack :: randomize c.k p)) := rfl

/-- Settles O48: the flag is one bit of the control byte, and frames that differ there only have different CRCs. -/
theorem retransmitFlagKeepsThePayloadBytes : Obligations.RetransmitFlagKeepsThePayloadBytes := by
  intro c f p hpoly hretx
  have hne : dataCtrl f.frm false f.ack ≠ dataCtrl f.frm false f.ack ^^^ 0x08 := fun h => by
    simpa using (BitVec.xor_right_inj _).1 ((BitVec.xor_zero).trans h)
  refine ⟨dataCtrl f.frm false f.ack, randomize c.k p, _, _, ?_, ?_,
    crc16_ne_of_head_ne hpoly hne (randomize c.k p)⟩
  · rw [unstuffedFrame_data, hretx]
  · rw [unstuffedFrame_data, dataCtrl_retx]

/-! ### The bytes of a frame, with the constants of R9 (R59, R81) -/

/-- The stuffing of a byte is the byte itself, not a reserved one, or the escape byte and one of the six escaped
forms. -/
theorem stuffByte_ashv2_cases (u : Byte) :
    (stuffByte .ashv2 u = [u] ∧ u ∉ Constants.ashv2.reserved) ∨
    ∃ x, stuffByte .ashv2 u = [0x7D, x] ∧ x ∈ ([0x5E, 0x5D, 0x31, 0x33, 0x38, 0x3A] : List Byte) := by
  by_cases h : u ∈ Constants.ashv2.reserved
  · right
    rw [Constants.ashv2] at h
    fin_cases h <;> exact ⟨_, rfl, by decide⟩
  · left
    exact ⟨by simp [stuffByte, isReserved, h], h⟩

/-- No reserved byte but the escape byte occurs in a stuffed sequence. -/
theorem mem_stuff_ashv2 {us : List Byte} {b : Byte} (h : b ∈ stuff .ashv2 us) :
    b = 0x7D ∨ b ∉ Constants.ashv2.reserved := by
  obtain ⟨u, -, hu⟩ := List.mem_flatMap.1 h
  rcases stuffByte_ashv2_cases u with ⟨e, hres⟩ | ⟨x, e, hx⟩ <;> rw [e] at hu
  · exact .inr (List.mem_singleton.1 hu ▸ hres)
  · rcases List.mem_pair.1 hu with rfl | rfl
    · exact .inl rfl
    · right
      fin_cases hx <;> decide

/-- In a stuffed sequence the escape byte is followed by an escaped form. -/
theorem stuff_ashv2_escape_followed {us a r : List Byte} (h : stuff .ashv2 us = a ++ 0x7D :: r) :
    ∃ x r', r = x :: r' ∧ x ∈ ([0x5E, 0x5D, 0x31, 0x33, 0x38, 0x3A] : List Byte) := by
  induction us generalizing a with
  | nil => simp at h
  | cons u us ih =>
    rw [stuff_cons] at h
    rcases stuffByte_ashv2_cases u with ⟨e, hres⟩ | ⟨x, e, hx⟩ <;> rw [e] at h
    · cases a with
      | nil =>
        obtain ⟨rfl, -⟩ := List.cons.inj h
        exact absurd (by decide) hres
      | cons b a => exact ih (List.cons.inj h).2
    · cases a with
      | nil => exact ⟨x, stuff .ashv2 us, (List.cons.inj h).2.symm, hx⟩
      | cons b a =>
        cases a with
        | nil =>
          obtain ⟨rfl, -⟩ := List.cons.inj (List.cons.inj h).2
          exact absurd hx (by decide)
        | cons b' a => exact ih (List.cons.inj (List.cons.inj h).2).2

/-- Settles O49: a frame is a stuffed sequence, where of the reserved bytes only the escape byte occurs, and the flag.
-/
theorem flagEndsTheFrameAndNothingElse : Obligations.FlagEndsTheFrameAndNothingElse := by
  intro c d p w hk henc
  obtain ⟨us, rfl⟩ : ∃ us, w = stuff .ashv2 us ++ [0x7E] := by
    obtain ⟨i, -, -, rfl⟩ := accepted_of_encodeFrame henc
    exact ⟨unstuffedFrame c (latchOf i) p, by rw [wireFrame, hk]; rfl⟩
  have habsent {b : Byte} (hb : b ∈ stuff .ashv2 us) : b ≠ 0x7E ∧ b ∉ ([0x11, 0x13, 0x18, 0x1A] : List Byte) := by
    rcases mem_stuff_ashv2 hb with rfl | hres
    · decide
    · simp only [Constants.ashv2, List.mem_cons, not_or] at hres
      obtain ⟨hflag, -, hrest⟩ := hres
      exact ⟨hflag, by simpa using hrest⟩
  exact ⟨stuff .ashv2 us, rfl, fun h => (habsent h).1 rfl, fun b hb => (habsent hb).2,
    fun a r => stuff_ashv2_escape_followed⟩

end Sys2Proof.Machine
end

section
/-! PROOFS. Whole runs under prompt sources and sink: the frame each command puts on the line (O53 to O56), and a list
of descriptors run to its end (O58). -/

namespace Sys2Proof.Machine

/-! ### One command -/

section HasSent

variable {t : State} {f : Sending} {es : List Event} (h : t.HasSent f es)
include h

theorem State.HasSent.lineOf_history : lineOf t.history = lineOf f.before ++ f.wire := by
  simp only [h.history, Sending.start, lineOf_append, h.line]
  simp [lineOf, outsOf]

theorem State.HasSent.paysOf_history : paysOf t.history = paysOf f.before ++ f.payload := by
  simp only [h.history, Sending.start, paysOf_append, h.payload]
  simp [paysOf]

/-- Between frames, with no error recorded, the status word is 0 (R25). -/
theorem State.HasSent.status : t.status = 0x00 := by
  obtain ⟨hidle, -, -⟩ := h.clean
  rw [State.status, h.err, State.busy, hidle]
  rfl

end HasSent

/-- What the run of one frame leaves: the line has gained the frame `w`, the payload bytes `p` are read, and the block
is between frames, with `STATUS` 0 and the rest of both sources still on offer. -/
def PutsFrame (s : State) (ds : List Desc) (p rest w : List Byte) : Prop :=
  ∃ t, Host.Core.run core (1 + 2 * w.length) s = .next t ∧ lineOf t.history = lineOf s.history ++ w ∧
    paysOf t.history = paysOf s.history ++ p ∧ t.env.payload = rest ∧ t.env.cmds = ds ∧
    t.phase = .idle ∧ t.status = 0x00

section Commands

variable {s : State} {ds : List Desc} (hl : s.Live) (hcl : s.Clean) (hpr : s.env.Prompt)
include hl hcl hpr

/-- A command that is not refused puts its wire frame on the line. -/
theorem putsFrame_of_command {i : Instr} {p rest : List Byte} (hc : s.env.cmds = encode i :: ds)
    (hpay : s.env.payload = p ++ rest) (hr : acceptRefusal s.cfg i = none) (hfit : payloadFits i p) :
    PutsFrame s ds p rest (wireFrame s.cfg (latchOf i) p) := by
  obtain ⟨t, es, hrun, hsent, -, henv⟩ := run_frame hl hcl hpr hc hpay (decode_encode i) hr hfit
  exact ⟨t, hrun, hsent.lineOf_history, hsent.paysOf_history, by rw [henv]; rfl, by rw [henv]; rfl,
    hsent.clean.1, hsent.status⟩

/-- A command of a kind without payload puts its wire frame on the line and reads no payload byte. -/
theorem putsFrame_of_no_payload {i : Instr} (hc : s.env.cmds = encode i :: ds) (hr : acceptRefusal s.cfg i = none)
    (hneed : payloadNeed (latchOf i) = 0) : PutsFrame s ds [] s.env.payload (wireFrame s.cfg (latchOf i) []) :=
  putsFrame_of_command hl hcl hpr hc rfl hr hneed.symm

end Commands

/-- The same, without a clause for payload bytes read. -/
theorem PutsFrame.no_payload {s : State} {ds : List Desc} {rest w : List Byte} (h : PutsFrame s ds [] rest w) :
    ∃ t, Host.Core.run core (1 + 2 * w.length) s = .next t ∧ lineOf t.history = lineOf s.history ++ w ∧
      paysOf t.history = paysOf s.history ∧ t.env.payload = rest ∧ t.env.cmds = ds ∧
      t.phase = .idle ∧ t.status = 0x00 := by
  simpa only [PutsFrame, List.append_nil] using h

/-- Settles O53: the payload XORed with the sequence is its randomization, and the control byte that of R52. -/
theorem dataCommandPutsItsFrameOnTheLine : Obligations.DataCommandPutsItsFrameOnTheLine := by
  intro s f ds p rest hl hcl hpr hc hpay hlen hmin hmax ctrl r c w
  have hr : acceptRefusal s.cfg (.data f) = none :=
    lengthRefusal_eq_none_iff.2 (by simp [Config.admitsLen, ← hlen, hmin, hmax])
  have hw : w = wireFrame s.cfg (latchOf (.data f)) p := by
    simp only [w, c, r, ctrl, wireFrame, unstuffedFrame_data, ← dataCtrl_eq, zipWith_rnd_eq_randomize]
    rfl
  rw [hw]
  exact putsFrame_of_command hl hcl hpr hc hpay hr hlen

/-- Settles O54: neither kind is checked or reads payload, and their control bytes are those of R53 and R54. -/
theorem ackAndNakCommandsPutTheirFramesOnTheLine : Obligations.AckAndNakCommandsPutTheirFramesOnTheLine := by
  intro s f ds hl hcl hpr frame puts
  refine ⟨fun hc => ?_, fun hc => ?_⟩
  · rw [← ackCtrl_eq]
    exact (putsFrame_of_no_payload hl hcl hpr hc rfl rfl).no_payload
  · rw [← nakCtrl_eq]
    exact (putsFrame_of_no_payload hl hcl hpr hc rfl rfl).no_payload

/-- The wire frame of an RST command does not depend on its fields (R89). -/
theorem wireFrame_rst_ashv2 {c : Config} (hk : c.k = Constants.ashv2) (f : Fields) :
    wireFrame c (latchOf (.rst f)) [] = [0xC0, 0x38, 0xBC, 0x7E] := by
  have hbody : frameBody c (latchOf (.rst f)) [] = [0xC0] := rfl
  rw [wireFrame, unstuffedFrame, hbody, hk]
  decide +kernel

/-- Settles O55: the four bytes are one evaluation of the model, and one ACCEPT and two steps a byte make nine. -/
theorem rstCommandPutsItsFrameOnTheLine : Obligations.RstCommandPutsItsFrameOnTheLine := by
  intro s f ds hl hcl hpr hk hc
  have h := putsFrame_of_no_payload (i := .rst f) hl hcl hpr hc rfl rfl
  rw [wireFrame_rst_ashv2 hk] at h
  exact h.no_payload

/-- Settles O56: neither kind is checked or reads payload; version and code follow the control byte as they are. -/
theorem rstackAndErrorCommandsPutTheirFramesOnTheLine : Obligations.RstackAndErrorCommandsPutTheirFramesOnTheLine := by
  intro s f ds hl hcl hpr frame puts
  exact ⟨fun hc => (putsFrame_of_no_payload hl hcl hpr hc rfl rfl).no_payload,
    fun hc => (putsFrame_of_no_payload hl hcl hpr hc rfl rfl).no_payload⟩

/-! ### A list of descriptors (R43, R44, R116) -/

/-- A descriptor either begins a frame, which reads the bytes its command needs, or is refused whatever the payload and
reads none. -/
theorem descNeed_cases (c : Config) (d : Desc) :
    (∃ i, decode d = .ok i ∧ acceptRefusal c i = none ∧ descNeed c d = payloadNeed (latchOf i)) ∨
    ∃ e, (∀ p, encodeFrame c d p = .error e) ∧ descNeed c d = 0 := by
  unfold descNeed encodeFrame
  cases decode d with
  | error e => cases e; exact .inr ⟨_, fun _ => rfl, rfl⟩
  | ok i =>
    simp only
    cases hr : acceptRefusal c i with
    | none => exact .inl ⟨i, rfl, hr, rfl⟩
    | some e => exact .inr ⟨e, fun _ => rfl, rfl⟩

/-- A block between frames with a refused descriptor on offer takes it and is still between frames. -/
theorem step_refuses {s : State} {d : Desc} {ds : List Desc} {p : List Byte} {e : ErrCode} (hl : s.Live)
    (hcl : s.Clean) (henv : s.env = .offering (d :: ds) p) (he : ∀ q, encodeFrame s.cfg d q = .error e) :
    ∃ t, step s = .next t ∧ t.Live ∧ t.Clean ∧ t.env = .offering ds p ∧ t.cfg = s.cfg ∧
      t.history = s.history ++ [.refused e] := by
  have hpr : s.env.Prompt := henv ▸ Env.prompt_offering _ p
  have hc : s.env.cmds = d :: ds := henv ▸ rfl
  have hdrive : s.drive = s := State.drive_of_no_script hpr.2
  have ha : s.acceptEnabled = true := State.acceptEnabled_of_offer hl hcl.1 (by rw [hpr.1]; rfl) hc
  have hstep : step s = .next (s.dropCmd.refuse e) := by
    rw [step_of_acceptEnabled (by rwa [hdrive]) (by rwa [hdrive]), hdrive, State.acceptStep_of_refused ha hc (he [])]
  have htenv : (s.dropCmd.refuse e).env = .offering ds p := by
    rw [State.refuse_env, State.dropCmd_env, henv]
    rfl
  exact ⟨_, hstep, hl.step hstep (htenv ▸ Env.prompt_offering ds p), hcl, htenv, rfl, rfl⟩

/-- From a block between frames a list of descriptors runs to its end, by induction on the list: each descriptor's
frame, or its refusal, leaves the block between frames with the others still on offer. -/
theorem run_program {s : State} {ds : List Desc} {p : List Byte} (hl : s.Live) (hcl : s.Clean)
    (henv : s.env = .offering ds p) (hneed : programNeed s.cfg ds ≤ p.length) :
    ∃ t, Host.Core.run core (programSteps s.cfg ds p) s = .next t ∧ t.Ended ∧
      lineOf t.history = lineOf s.history ++ programLine s.cfg ds p ∧
      paysOf t.history = paysOf s.history ++ p.take (programNeed s.cfg ds) ∧
      t.env.payload = p.drop (programNeed s.cfg ds) := by
  induction ds generalizing s p with
  | nil =>
    refine ⟨s, rfl, ⟨henv ▸ rfl, hcl.1, ?_⟩, by simp [programLine], by simp [programNeed], henv ▸ rfl⟩
    rw [henv]
    exact fun m hm => absurd hm (List.not_mem_nil)
  | cons d ds ih =>
    rw [programNeed] at hneed
    rcases descNeed_cases s.cfg d with ⟨i, hd, hr, hn⟩ | ⟨e, he, hn⟩
    · have hp : s.env.payload = p.take (descNeed s.cfg d) ++ p.drop (descNeed s.cfg d) := by
        rw [henv, List.take_append_drop]
        rfl
      have hfit : payloadFits i (p.take (descNeed s.cfg d)) := by
        rw [payloadFits, List.length_take, ← hn]
        omega
      obtain ⟨t, es, hrun, hsent, htl, htenv⟩ :=
        run_frame hl hcl (henv ▸ Env.prompt_offering _ p) (by rw [henv]; rfl) hp hd hr hfit
      have hcfg : t.cfg = s.cfg := hsent.cfg
      obtain ⟨u, hrun', hend, hline, hpays, hrest⟩ := ih htl hsent.clean htenv (by
        rw [hcfg, List.length_drop]
        omega)
      rw [hcfg] at hrun' hline hpays hrest
      have henc := encodeFrame_of_accepted hd hr (p.take (descNeed s.cfg d))
      refine ⟨u, ?_, hend, ?_, ?_, ?_⟩
      · rw [programSteps, henc]
        exact (run_add hrun).trans hrun'
      · rw [hline, hsent.lineOf_history, programLine, henc, List.append_assoc]
        rfl
      · rw [hpays, hsent.paysOf_history, programNeed, List.take_add, List.append_assoc]
      · rw [hrest, List.drop_drop, programNeed]
    · obtain ⟨t, hstep, htl, htcl, htenv, hcfg, hh⟩ := step_refuses hl hcl henv he
      obtain ⟨u, hrun, hend, hline, hpays, hrest⟩ := ih htl htcl htenv (by
        rw [hcfg]
        omega)
      rw [hcfg] at hrun hline hpays hrest
      rw [programNeed, hn, Nat.zero_add]
      refine ⟨u, ?_, hend, ?_, ?_, hrest⟩
      · rw [programSteps, he, Nat.add_comm, run_succ hstep, hrun]
      · rw [hline, hh, programLine, he, lineOf_append]
        simp [lineOf, outsOf]
      · rw [hpays, hh, paysOf_append]
        simp [paysOf]

/-- Settles O58: a prompt environment offers the list, and what it offers runs to its end. -/
theorem programRunsToItsEnd : Obligations.ProgramRunsToItsEnd :=
  fun _ hl hcl hpr hneed => run_program hl hcl hpr.eq_offering hneed

end Sys2Proof.Machine
end

section
/-! PROOFS. Completion under weak fairness (O60): in an execution that meets the launch premises the block is sending
the frame from its ACCEPT on, waits only finitely often between two steps, and each step brings the frame nearer its
end. -/

namespace Sys2Proof.Machine

/-! ### What does not depend on the environment -/

/-- The invariant is a matter of the block's registers. -/
theorem State.Inv.with_env {s : State} (hi : s.Inv) (e : Env) : ({ s with env := e } : State).Inv :=
  ⟨hi.idle_empty, hi.drain_flag, hi.last_drain, hi.pend_escape, hi.payload_data, hi.body_kind, hi.busy_latch,
    hi.ctrl_idx⟩

/-- The frame being sent is a matter of the block's registers and the history. -/
theorem State.Sends.with_env {s : State} {f : Sending} {es : List Event} {q : List Byte} (h : s.Sends f es q)
    (e : Env) :
    ({ s with env := e } : State).Sends f es q :=
  { inv := h.inv.with_env e
    busy := h.busy, cfg := h.cfg, latch := h.latch, err := h.err, history := h.history, inFrame := h.inFrame
    due := h.due, payload := h.payload, wire := h.wire }

theorem State.HasSent.with_env {s : State} {f : Sending} {es : List Event} (h : s.HasSent f es) (e : Env) :
    ({ s with env := e } : State).HasSent f es :=
  { cfg := h.cfg, history := h.history, onWire := h.onWire, payload := h.payload, line := h.line, outs := h.outs
    clean := h.clean, err := h.err }

/-! ### The counts inside a frame (R110) -/

/-- Inside a frame no frame is begun, and the bytes read are those of the frame. -/
theorem counts_of_inFrame {es : List Event} (h : ∀ e ∈ es, e.inFrame = true) (n : Nat) :
    framesBegun es = 0 ∧ es.foldl Event.countRead n = n + (paysOf es).length := by
  induction es generalizing n with
  | nil => exact ⟨rfl, rfl⟩
  | cons e es ih =>
    obtain ⟨he, hes⟩ := List.forall_mem_cons.1 h
    cases e with
    | pay b =>
      obtain ⟨hf, hr⟩ := ih hes (n + 1)
      exact ⟨hf, hr.trans (by rw [paysOf, List.length_cons]; omega)⟩
    | out b l => exact ih hes n
    | _ => cases he

theorem framesBegun_start (f : Sending) {es : List Event} (h : ∀ e ∈ es, e.inFrame = true) :
    framesBegun (f.start ++ es) = framesBegun f.start := by
  rw [framesBegun_append, (counts_of_inFrame h 0).1, Nat.add_zero]

theorem bytesRead_start (f : Sending) {es : List Event} (h : ∀ e ∈ es, e.inFrame = true) :
    bytesRead (f.start ++ es) = (paysOf es).length := by
  rw [bytesRead_append, (counts_of_inFrame h _).2, Sending.start, bytesRead_append]
  exact Nat.zero_add _

/-! ### Executions -/

theorem Execution.next {x : Nat → State} (hx : Execution x) {m : Nat} {t : State} (h : step (x m) = .next t) :
    x (m + 1) = t.withScript (x (m + 1)).env.script := by
  obtain ⟨t', h', e⟩ := hx m
  rw [h] at h'
  cases h'
  exact e

/-- From its first reset step on an execution meets the invariant of R32. -/
theorem Execution.inv {x : Nat → State} (hx : Execution x) (hr : ResetFirst x) (hc : ConfigOk x) (n : Nat) :
    (x (n + 1)).Inv := by
  induction n with
  | zero =>
    rw [Execution.first hx hr hc]
    exact (State.resetStep_inv _).with_env _
  | succ n ih =>
    obtain ⟨t, h, e⟩ := hx (n + 1)
    rw [e]
    exact (step_inv ih h).with_env _

/-- A step that records an accepted descriptor is ACCEPT, and begins that descriptor's frame. -/
theorem State.act_of_accept {u t : State} {d : Desc} (h : u.act = .next t)
    (hh : t.history = u.history ++ [.accept d]) :
    ∃ i, u.Live ∧ u.phase = .idle ∧ decode d = .ok i ∧ acceptRefusal u.cfg i = none ∧ t = u.dropCmd.startFrame i := by
  cases State.stepCase h with
  | reset _ e => subst e; simp at hh
  | abortIdle _ _ _ e => subst e; simp at hh
  | abort _ _ _ e => subst e; simp at hh
  | start hl ha d' ds i hc hd hr e =>
    subst e
    have hd' : encode i = d := by simpa using hh
    exact ⟨i, hl, (State.acceptEnabled_facts ha).1, hd' ▸ decode_encode i, hr, rfl⟩
  | refuse _ _ _ _ _ _ _ e => subst e; simp at hh
  | emit _ _ _ e => subst e; simp at hh
  | advance _ _ _ hv e => rcases State.advance_history hv e with hh' | ⟨b, hh'⟩ <;> simp [hh'] at hh
  | wait _ _ _ _ e => subst e; simp at hh

/-- The kinds of step that have brought a frame to where `bytes` of its bytes are taken and one more is in the slot, or
none: ADVANCE and EMIT in turn. -/
def kindsSoFar (bytes : Nat) (full : Bool) : List StepKind :=
  (List.replicate bytes [StepKind.advance, StepKind.emit]).flatten ++ if full then [.advance] else []

theorem kindsSoFar_advance (n : Nat) : kindsSoFar n false ++ [.advance] = kindsSoFar n true := by
  simp [kindsSoFar]

theorem kindsSoFar_emit (n : Nat) : kindsSoFar n true ++ [.emit] = kindsSoFar (n + 1) false := by
  simp [kindsSoFar, List.replicate_succ']

theorem stepsTaken_succ (x : Nat → State) (N j : Nat) :
    stepsTaken x N (j + 1) = stepsTaken x N j ++
      if (x (N + j)).drive.stepKind = .wait then [] else [(x (N + j)).drive.stepKind] := by
  rw [stepsTaken_add, stepsTaken_one]

/-! ### Which step is taken inside a frame (R72, R75, R100) -/

section Inside

variable {u : State} (hl : u.Live) (hp : u.phase ≠ .idle)
include hl hp

theorem State.stepKind_full (hf : u.outFull = true) :
    u.stepKind = if u.env.pins.outReady then .emit else .wait := by
  simp [State.stepKind_inside hl hp, State.emitEnabled, State.advanceEnabled, hf]

theorem State.stepKind_empty (hf : u.outFull = false) :
    u.stepKind = if u.advanceEnabled then .advance else .wait := by
  simp [State.stepKind_inside hl hp, State.emitEnabled, hf]

end Inside

/-- With nothing enabled the block waits (R111). -/
theorem State.act_of_waiting {s : State} (hl : s.Live) (ha : s.acceptEnabled = false) (he : s.emitEnabled = false)
    (hv : s.advanceEnabled = false) : s.act = .next s := by
  simp [State.act_of_live hl, ha, he, hv]

section Fair

/-! A frame in progress from step `N` of an execution on, each payload byte offered being the frame's next. -/

variable {x : Nat → State} {f : Sending} {N : Nat} (hx : Execution x) (hlive : ∀ j, (x (N + j)).drive.Live)
  (hoffer : ∀ j es q, (x (N + j)).Sends f es q → (x (N + j)).drive.plValid = true →
    (x (N + j)).drive.env.payload.head? = q.head?)

/-- Where the execution stands at step `N + j`, with the steps taken so far. -/
def StandsAt (x : Nat → State) (f : Sending) (N j : Nat) (es : List Event) (q : List Byte) (full : Bool) : Prop :=
  (x (N + j)).Sends f es q ∧ (x (N + j)).outFull = full ∧ stepsTaken x N j = kindsSoFar (lineOf es).length full

variable {j : Nat} {es : List Event} {q : List Byte} {full : Bool}

include hx hlive

/-- A waiting step leaves the frame where it is. -/
theorem StandsAt.wait (h : StandsAt x f N j es q full) (hk : (x (N + j)).drive.stepKind = .wait) :
    StandsAt x f N (j + 1) es q full := by
  obtain ⟨hs, hf, htaken⟩ := h
  have hbusy : (x (N + j)).drive.phase ≠ .idle := hs.busy
  have hstep : step (x (N + j)) = .next (x (N + j)).drive := by
    rw [State.stepKind_inside (hlive j) hbusy] at hk
    split_ifs at hk with he hv
    exact State.act_of_waiting (hlive j) (State.acceptEnabled_of_busy hbusy) (Bool.of_not_eq_true he)
      (Bool.of_not_eq_true hv)
  have hnext := hx.next hstep
  refine ⟨?_, ?_, by rw [stepsTaken_succ, if_pos hk, htaken, List.append_nil]⟩
  · rw [← Nat.add_assoc, hnext]
    exact hs.with_env _
  · rw [← Nat.add_assoc, hnext]
    exact hf

/-- If what the block waits for comes again and again, the block waits only finitely often. -/
theorem StandsAt.stops_waiting {P : State → Prop} (hfair : ∀ n, ∃ m, n ≤ m ∧ P (x m).drive)
    (hgo : ∀ j, StandsAt x f N j es q full → P (x (N + j)).drive → (x (N + j)).drive.stepKind ≠ .wait)
    (h : StandsAt x f N j es q full) :
    ∃ j', StandsAt x f N j' es q full ∧ (x (N + j')).drive.stepKind ≠ .wait := by
  obtain ⟨m, hm, hP⟩ := hfair (N + j)
  obtain ⟨k, rfl⟩ := Nat.exists_eq_add_of_le hm
  clear hm
  induction k generalizing j with
  | zero => exact ⟨j, h, hgo j h hP⟩
  | succ k ih =>
    by_cases hk : (x (N + j)).drive.stepKind = .wait
    · exact ih (h.wait hx hlive hk) (by rwa [show N + (j + 1) + k = N + j + (k + 1) by omega])
    · exact ⟨j, h, hk⟩

/-- With a fair sink the byte in the slot is taken in the end: the next byte is to come, or the frame is done. -/
theorem StandsAt.emit (hsink : SinkFair x) (h : StandsAt x f N j es q true) :
    (∃ j' es', StandsAt x f N j' es' q false ∧ (lineOf es').length = (lineOf es).length + 1) ∨
    ∃ j' es', (x (N + j')).HasSent f es' ∧ stepsTaken x N j' = kindsSoFar f.wire.length false := by
  have kind (j : Nat) (h : StandsAt x f N j es q true) :
      (x (N + j)).drive.stepKind = if (x (N + j)).drive.env.pins.outReady then .emit else .wait :=
    State.stepKind_full (hlive j) h.1.busy h.2.1
  obtain ⟨j', h', hk⟩ := h.stops_waiting hx hlive
      (P := fun u => u.outValid = false ∨ u.env.pins.outReady = true) hsink fun j hj hP => by
    have hr := hP.resolve_left (show ¬ (x (N + j)).outFull = false by simp [hj.2.1])
    rw [kind j hj, if_pos hr]
    decide
  have hkind := kind j' h'
  obtain ⟨hs, hf, htaken⟩ := h'
  have hsd : (x (N + j')).drive.Sends f es q := hs.with_env _
  have hfd : (x (N + j')).drive.outFull = true := hf
  have hr : (x (N + j')).drive.env.pins.outReady = true := by
    by_contra hr
    exact hk (hkind.trans (if_neg hr))
  rw [if_pos hr] at hkind
  have hnext := hx.next (step_of_full (hlive j') hsd.inv hfd hr)
  have hsteps : stepsTaken x N (j' + 1) = kindsSoFar ((lineOf es).length + 1) false := by
    rw [stepsTaken_succ, hkind, if_neg (by decide), htaken, kindsSoFar_emit]
  cases hL : (x (N + j')).drive.outLast with
  | false =>
    refine .inl ⟨j' + 1, es ++ [.out (x (N + j')).drive.outByte false], ⟨?_, ?_, ?_⟩, ?_⟩
    · rw [← Nat.add_assoc, hnext]
      exact (hsd.emit hfd hL).with_env _
    · rw [← Nat.add_assoc, hnext]
      rfl
    · simpa using hsteps
    · simp
  | true =>
    obtain ⟨hsent, -⟩ := hsd.emit_last hfd hL
    refine .inr ⟨j' + 1, es ++ [.out f.cfg.k.flag true], ?_, by rw [hsteps, (hsd.last_iff hfd).1 hL]⟩
    rw [← Nat.add_assoc, hnext]
    exact hsent.with_env _

include hoffer

/-- With a fair payload source the slot is filled in the end. -/
theorem StandsAt.advance (hpay : PayloadFair x) (h : StandsAt x f N j es q false) :
    ∃ j' es' q', StandsAt x f N j' es' q' true ∧ (lineOf es').length = (lineOf es).length := by
  have kind (j : Nat) (h : StandsAt x f N j es q false) :
      (x (N + j)).drive.stepKind = if (x (N + j)).drive.advanceEnabled then .advance else .wait :=
    State.stepKind_empty (hlive j) h.1.busy h.2.1
  obtain ⟨j', h', hk⟩ := h.stops_waiting hx hlive
      (P := fun u => u.plReady = false ∨ u.plValid = true) hpay fun j hj hP => by
    have hsd : (x (N + j)).drive.Sends f es q := hj.1.with_env _
    rw [kind j hj, if_pos (State.advanceEnabled_of_supplied hsd.inv hsd.busy hj.2.1 hP)]
    decide
  have hkind := kind j' h'
  obtain ⟨hs, hf, htaken⟩ := h'
  have hsd : (x (N + j')).drive.Sends f es q := hs.with_env _
  have hv : (x (N + j')).drive.advanceEnabled = true := by
    by_contra hv
    exact hk (hkind.trans (if_neg hv))
  rw [if_pos hv] at hkind
  obtain ⟨t, ht⟩ := State.advance_ok hsd.inv hv
  obtain ⟨pays, q', -, -, -, hfull, hst⟩ := hsd.advance hv ht (fun _ => hoffer j' es q hs)
  have hnext := hx.next ((step_of_advanceEnabled (hlive j') hv).trans ht)
  refine ⟨j' + 1, es ++ pays.map .pay, q', ⟨?_, ?_, ?_⟩, ?_⟩
  · rw [← Nat.add_assoc, hnext]
    exact hst.with_env _
  · rw [← Nat.add_assoc, hnext]
    exact hfull
  · rw [stepsTaken_succ, hkind, if_neg (by decide), htaken, kindsSoFar_advance]
    simp
  · simp

/-- The frame is done in the end: by induction on the bytes still to be taken. -/
theorem StandsAt.completes (hsink : SinkFair x) (hpay : PayloadFair x) (h : StandsAt x f N j es q false) :
    ∃ j' es', (x (N + j')).HasSent f es' ∧ stepsTaken x N j' = kindsSoFar f.wire.length false := by
  obtain ⟨left, hleft⟩ := Nat.exists_eq_add_of_le h.1.line_length_lt.le
  induction left generalizing j es q with
  | zero => exact absurd h.1.line_length_lt (by omega)
  | succ left ih =>
    obtain ⟨j₁, es₁, q₁, h₁, hline₁⟩ := h.advance hx hlive hoffer hpay
    rcases h₁.emit hx hlive hsink with ⟨j₂, es₂, h₂, hline₂⟩ | hdone
    · exact ih h₂ (by omega)
    · exact hdone

end Fair

/-- What the payload source offers inside the frame is the next of the bytes meant for it (R110). -/
theorem PayloadAligned.offers_next {x : Nat → State} {want : Nat → List Byte} (ha : PayloadAligned x want) {m : Nat}
    {f : Sending} {es : List Event} {q : List Byte} (hp : f.payload = want (framesBegun f.start))
    (hs : (x (m + 1)).Sends f es q) (hv : (x (m + 1)).drive.plValid = true) :
    (x (m + 1)).drive.env.payload.head? = q.head? := by
  rw [ha.in_order m hv, hs.history, framesBegun_start f hs.inFrame, bytesRead_start f hs.inFrame, ← hp, ← hs.payload,
    List.getElem?_append_right (Nat.le_refl _), Nat.sub_self, List.head?_eq_getElem?]

/-- A step that records an accepted descriptor begins its frame, with the payload meant for it. -/
theorem LaunchPremises.sends_of_accept {x : Nat → State} {want : Nat → List Byte} (hx : Execution x)
    (hp : LaunchPremises x want) {n : Nat} {d : Desc} (hh : (x (n + 1)).history = (x n).history ++ [.accept d]) :
    ∃ f : Sending, f.cfg = (x n).cfg ∧ f.start = (x (n + 1)).history ∧
      f.payload = want (framesBegun (x (n + 1)).history) ∧ encodeFrame f.cfg d f.payload = .ok f.wire ∧
      StandsAt x f (n + 1) 0 [] f.payload false := by
  obtain ⟨t, hstep, e⟩ := hx n
  have hth : t.history = (x n).drive.history ++ [.accept d] := by
    rw [e] at hh
    exact hh
  obtain ⟨i, hl, hidle, hd, hr, rfl⟩ := State.act_of_accept hstep hth
  have hi : (x n).drive.Inv := by
    cases n with
    | zero =>
      have hrst : (x 0).drive.env.pins.rst = true := hp.reset_first
      rw [hl.2.2.1] at hrst
      cases hrst
    | succ n => exact (Execution.inv hx hp.reset_first hp.config_ok n).drive
  have hfit : payloadFits i (want (framesBegun (x (n + 1)).history)) :=
    hp.payload_aligned.length_fits n _ (by rw [e]; simp) (by rw [e]; rfl)
  generalize want (framesBegun (x (n + 1)).history) = p at hfit
  have hsends := State.startFrame_sends (s := (x n).drive.dropCmd) (State.inv_of_idle hidle (hi.idle_empty hidle).1
    (hi.idle_empty hidle).2) hidle hr hfit
  refine ⟨⟨(x n).cfg, (x n).history, i, p⟩, rfl, ?_, rfl, encodeFrame_of_accepted hd hr _, ?_, ?_, rfl⟩
  · rw [Sending.start, encode_of_decode hd, hh]
  · rw [Nat.add_zero, e]
    exact hsends.with_env _
  · rw [Nat.add_zero, e]
    exact (hi.idle_empty hidle).1

/-- Settles O60: from its ACCEPT on the frame is being sent; fairness ends every wait, and the steps taken in between
fill and empty the slot once for each of its bytes. -/
theorem fairFramesComplete : Obligations.FairFramesComplete := by
  intro x want hx hp n d hh p
  obtain ⟨f, hcfg, hstart, hpay, henc, hat⟩ := hp.sends_of_accept hx hh
  have hlive (j : Nat) : (x (n + 1 + j)).drive.Live := by
    rw [Nat.add_right_comm]
    exact hp.live hx (n + j)
  have hoffer (j : Nat) (es : List Event) (q : List Byte) (hs : (x (n + 1 + j)).Sends f es q)
      (hv : (x (n + 1 + j)).drive.plValid = true) : (x (n + 1 + j)).drive.env.payload.head? = q.head? := by
    rw [Nat.add_right_comm] at hs hv ⊢
    exact hp.payload_aligned.offers_next (by rw [hpay, hstart]) hs hv
  obtain ⟨j, es, hsent, hsteps⟩ := hat.completes hx hlive hoffer hp.sink_fair hp.payload_fair
  refine ⟨j, f.wire, es, ?_, ?_, hsent.onWire, hsent.payload.trans hpay, ?_, hsent.line, hsent.clean.1, hsent.err, ?_⟩
  · rw [← hcfg, ← henc, hpay]
  · rw [hsent.history, hstart]
  · rw [hsent.outs, hcfg]
  · simpa [kindsSoFar] using hsteps

end Sys2Proof.Machine
end

section
/-! PROOFS. The command channel: what a descriptor decodes to (O4, O5), what a text command stands for (O59), and what
its transfer does, command by command (O6 to O11, O14). -/

namespace Sys2Proof

/-! ### The `KIND` values (R48) -/

theorem decode_of_kind {d : Desc} {k : FrameKind} (h : FrameKind.ofCode (d.extractLsb' 0 3) = some k) :
    decode d = .ok (Instr.ofKind k (descFields d)) := by
  simp only [decode, descKind, h]

end Sys2Proof

namespace Sys2Proof.Machine

/-- Settles O4: the six codes name their kinds, whose command takes its fields from the descriptor, and the other two
name none. -/
theorem kindCodesNameTheSixFrames : Obligations.KindCodesNameTheSixFrames := by
  intro d
  refine ⟨fun h => ⟨_, decode_of_kind (k := .data) ?_⟩, fun h => ⟨_, decode_of_kind (k := .ack) ?_⟩,
    fun h => ⟨_, decode_of_kind (k := .nak) ?_⟩, fun h => ⟨_, decode_of_kind (k := .rst) ?_⟩,
    fun h => ⟨_, decode_of_kind (k := .rstack) ?_⟩, fun h => ⟨_, decode_of_kind (k := .error) ?_⟩,
    fun h => decode_eq_error_iff.2 (.inl h), fun h => decode_eq_error_iff.2 (.inr h)⟩ <;>
  rw [h] <;> rfl

/-- Settles O5: five descriptors, each decoded by evaluation. -/
theorem descriptorsOfTheSpecDecode : Obligations.DescriptorsOfTheSpecDecode :=
  ⟨⟨_, rfl, rfl, rfl, rfl, rfl⟩, ⟨_, rfl, rfl, rfl⟩, ⟨_, rfl⟩, ⟨_, rfl, rfl, rfl⟩, rfl⟩

/-! ### The text form (R62) -/

/-- A payload list that `LEN` can count stands for a DATA command of that length. -/
theorem assemble_data {f a : SeqNum} {r : Bool} {p : List Byte} (h : p.length < 256) :
    (Command.data f a r p).assemble =
      some (.data { Fields.zero with frm := f, ack := a, retx := r, len := BitVec.ofNat 8 p.length }, p) := if_pos h

theorem toNat_ofNat_length {p : List Byte} (h : p.length < 256) : (BitVec.ofNat 8 p.length).toNat = p.length := by
  rw [BitVec.toNat_ofNat]
  exact Nat.mod_eq_of_lt h

/-- What a DATA command assembles to fits its payload. -/
theorem payloadFits_of_assemble_data {f a : SeqNum} {r : Bool} {p q : List Byte} {i : Instr}
    (h : (Command.data f a r p).assemble = some (i, q)) : payloadFits i q := by
  by_cases hlen : p.length < 256
  · rw [assemble_data hlen] at h
    cases h
    exact (toNat_ofNat_length hlen).symm
  · rw [show (Command.data f a r p).assemble = none from if_neg hlen] at h
    cases h

/-- Whatever a command assembles to fits its payload. -/
theorem payloadFits_of_assemble {c : Command} {i : Instr} {p : List Byte} (h : c.assemble = some (i, p)) :
    payloadFits i p := by
  cases c with
  | data f a r p => exact payloadFits_of_assemble_data h
  | retx f a p => exact payloadFits_of_assemble_data (r := true) h
  | _ => cases h; rfl

/-- Settles O59: a list that `LEN` can count gives its length, a longer one nothing; every other clause is the
definition of `assemble`, pseudo-commands being expanded first. -/
theorem assembledCommandsMeetTheSyntax : Obligations.AssembledCommandsMeetTheSyntax := by
  refine ⟨fun f a r p h => ?_, fun f a r p h => if_neg (by omega), fun _ _ => rfl, fun _ _ => rfl, rfl, fun _ _ => rfl,
    fun _ _ => rfl, fun _ _ _ => rfl, fun _ => ⟨rfl, rfl⟩, fun c i p h => ⟨payloadFits_of_assemble h, decode_encode i⟩⟩
  have hlen : p.length < 256 := by omega
  exact ⟨BitVec.ofNat 8 p.length, toNat_ofNat_length hlen, assemble_data hlen⟩

/-! ### A command on the channel (R28, R35, R71) -/

theorem State.canTransfer_iff {s : State} :
    s.canTransfer = true ↔ s.phase = .idle ∧ s.env.pins.rst = false ∧ s.env.pins.abort = false := by
  simp [State.canTransfer, State.cmdReady, and_assoc]

section Exec

variable {i : Instr} {s : State}

theorem exec_of_accepted (ht : s.canTransfer = true) (hr : acceptRefusal s.cfg i = none) :
    exec i s = .next (s.startFrame i) := by
  rw [exec_eq, hr]
  exact State.transfer_of_canTransfer ht _

theorem exec_of_refused {c : ErrCode} (ht : s.canTransfer = true) (hr : acceptRefusal s.cfg i = some c) :
    exec i s = .next (s.refuse c) := by
  rw [exec_eq, hr]
  exact State.transfer_of_canTransfer ht _

theorem exec_of_no_transfer (ht : s.canTransfer = false) : exec i s = .next s := by
  rw [exec_eq, State.transfer, ht]
  rfl

end Exec

/-- Settles O6: the step is ACCEPT, which takes the descriptor off the channel and executes what it decodes to. -/
theorem stepRunsTheDecodedCommand : Obligations.StepRunsTheDecodedCommand := by
  intro s d ds i hl hp hv hc hd
  rw [step_of_acceptEnabled hl (State.acceptEnabled_of_offer hl hp hv hc), ← State.dropCmd_of_cons hc]
  simp only [State.acceptStep, hc, hd]

/-- Settles O7: a length within the bounds passes both checks. -/
theorem dataCommandStartsItsFrame : Obligations.DataCommandStartsItsFrame := by
  intro f s hp hrst habort hmin hmax
  exact exec_of_accepted (State.canTransfer_iff.2 ⟨hp, hrst, habort⟩)
    (lengthRefusal_eq_none_iff.2 (by simp [Config.admitsLen, hmin, hmax]))

/-- Settles O8: the first check is for a length too long; one too short passes it, since the bounds are in order. -/
theorem dataCommandRefusedByItsLength : Obligations.DataCommandRefusedByItsLength := by
  intro f s hp hrst habort hbounds
  have ht := State.canTransfer_iff.2 ⟨hp, hrst, habort⟩
  have hrefused (c : ErrCode) (hr : lengthRefusal s.cfg f.len = some c) : exec (.data f) s = .next (s.refuse c) :=
    exec_of_refused ht hr
  refine ⟨fun hlong => hrefused .oversize (if_pos hlong), fun hshort => hrefused .undersize ?_⟩
  rw [lengthRefusal, if_neg (by omega), if_pos hshort]

/-- Settles O9: neither kind is checked. -/
theorem ackAndNakCommandsStartTheirFrames : Obligations.AckAndNakCommandsStartTheirFrames := by
  intro f s hp hrst habort
  have ht := State.canTransfer_iff.2 ⟨hp, hrst, habort⟩
  exact ⟨exec_of_accepted (i := .ack f) ht rfl, exec_of_accepted (i := .nak f) ht rfl⟩

/-- Settles O10: none of the three kinds is checked. -/
theorem resetAndErrorCommandsStartTheirFrames : Obligations.ResetAndErrorCommandsStartTheirFrames := by
  intro f s hp hrst habort
  have ht := State.canTransfer_iff.2 ⟨hp, hrst, habort⟩
  exact ⟨exec_of_accepted (i := .rst f) ht rfl, exec_of_accepted (i := .rstack f) ht rfl,
    exec_of_accepted (i := .error f) ht rfl⟩

/-- Settles O11: each of the three levels closes the channel. -/
theorem commandNotTransferredHasNoEffect : Obligations.CommandNotTransferredHasNoEffect := by
  intro i s h
  refine exec_of_no_transfer (Bool.of_not_eq_true fun ht => ?_)
  obtain ⟨hp, hrst, habort⟩ := State.canTransfer_iff.1 ht
  rcases h with h | h | h
  · exact h hp
  · simp [hrst] at h
  · simp [habort] at h

/-- Settles O14: ACCEPT records the refusal of a descriptor `Encode` refuses, and the descriptor itself of any other. -/
theorem refusalAgreesWithEncode : Obligations.RefusalAgreesWithEncode := by
  intro s t d ds c p hl hp hv hc h
  have ha := State.acceptEnabled_of_offer hl hp hv hc
  rw [step_of_acceptEnabled hl ha] at h
  cases henc : encodeFrame s.cfg d p with
  | error c' =>
    rw [State.acceptStep_of_refused ha hc henc] at h
    cases h
    simp
  | ok w =>
    obtain ⟨i, hd, hr, -⟩ := accepted_of_encodeFrame henc
    rw [State.acceptStep_of_accepted ha hc hd hr] at h
    cases h
    simp

end Sys2Proof.Machine
end

section
/-! PROOFS. One step: which it is and that it answers (O17, O22, O23, O25), what it writes (O26, O28, O29, O30, O31),
what it does not read (O32), when it waits (O57), and the state reset leaves (O33). -/

namespace Sys2Proof.Machine

/-! ### Which step is taken (R76, R100) -/

/-- Settles O17: ACCEPT is enabled between frames, the other two inside one, and they differ in the slot. -/
theorem atMostOneStepIsEnabled : Obligations.AtMostOneStepIsEnabled := by
  intro u hi
  refine ⟨fun ⟨ha, hv⟩ => ?_, fun ⟨ha, he⟩ => ?_, fun ⟨hv, he⟩ => ?_⟩
  · exact (State.advanceEnabled_facts hv).1 (State.acceptEnabled_facts ha).1
  · exact State.phase_ne_idle_of_full hi (State.emitEnabled_facts he).1 (State.acceptEnabled_facts ha).1
  · simpa [(State.emitEnabled_facts he).1] using (State.advanceEnabled_facts hv).2.2

theorem step_of_badConfig {s : State} (hok : s.cfg.ok = false) : step s = .refused .badConfig := by
  simp [step_eq_act, State.act, hok]

/-- ADVANCE may find the latch without a value; it refuses nothing. -/
theorem State.advance_ne_refused (s : State) (r : Refusal) : s.advance ≠ .refused r := by
  have hlatch (f : Latch → State) : s.withLatch f ≠ .refused r := by
    unfold State.withLatch
    cases s.latch <;> simp
  unfold State.advance
  cases s.escPend with
  | true => simp
  | false =>
    cases s.phase with
    | ctrl => exact hlatch _
    | version => exact hlatch _
    | code => exact hlatch _
    | payload =>
      cases s.env.payload with
      | nil => simp
      | cons b p => exact hlatch _
    | _ => simp

theorem State.acceptStep_answers {s : State} (ha : s.acceptEnabled = true) : ∃ t, s.acceptStep = .next t := by
  obtain ⟨d, ds, -, ⟨i, -, -, e⟩ | ⟨i, c, -, -, e⟩ | ⟨-, e⟩⟩ := State.acceptStep_cases ha
  · exact ⟨_, e⟩
  · exact ⟨_, e⟩
  · exact ⟨_, e⟩

/-- A live block's step is refused for no reason (R92). -/
theorem State.act_ne_refused_of_live {s : State} (hl : s.Live) (r : Refusal) : s.act ≠ .refused r := by
  rw [State.act_of_live hl]
  split_ifs with ha
  · obtain ⟨t, ht⟩ := State.acceptStep_answers ha
    simp [ht]
  · simp
  · exact s.advance_ne_refused r
  · simp

/-- In bounds, a step is refused before the first reset only. -/
theorem State.act_ne_badConfig {s : State} (hok : s.cfg.ok = true) : s.act ≠ .refused .badConfig := by
  by_cases hl : s.Live
  · exact State.act_ne_refused_of_live hl _
  · unfold State.act
    cases hrst : s.env.pins.rst <;> cases hseen : s.resetSeen <;> cases habort : s.env.pins.abort <;> simp [hok]
    exact absurd ⟨hok, hseen, hrst, habort⟩ hl

theorem Config.ok_iff (c : Config) :
    c.ok = true ↔ c.minDataPayload ≤ c.maxDataPayload ∧ 1 ≤ c.maxDataPayload ∧ c.maxDataPayload ≤ 255 := by
  simp [Config.ok, and_assoc]

/-- Settles O22: the first check of a step is the configuration's, and nothing else is refused for that reason. -/
theorem badConfigurationIsRefused : Obligations.BadConfigurationIsRefused := by
  intro s
  rw [← Config.ok_iff]
  refine ⟨fun h hok => State.act_ne_badConfig (s := s.drive) hok h, fun h => step_of_badConfig ?_⟩
  simpa using h

/-- Abort leaves the sources and the line alone and the slot empty (R97, R98). -/
theorem State.abortStep_withdraws {u : State} (hi : u.Inv) :
    u.abortStep.env = u.env ∧ lineOf u.abortStep.history = lineOf u.history ∧ u.abortStep.outFull = false := by
  by_cases hp : u.phase = .idle
  · rw [State.abortStep_of_idle hp]
    exact ⟨rfl, rfl, (hi.idle_empty hp).1⟩
  · rw [State.abortStep_of_busy hp]
    exact ⟨rfl, by simp [lineOf, outsOf], rfl⟩

/-- Reset leaves the sources and the line alone and the slot empty (R105, R106). -/
theorem State.resetStep_withdraws (u : State) :
    u.resetStep.env = u.env ∧ lineOf u.resetStep.history = lineOf u.history ∧ u.resetStep.outFull = false :=
  ⟨rfl, by simp [lineOf, outsOf], rfl⟩

/-- Settles O23: each step where its turn comes; the two that come first take nothing and empty the slot. -/
theorem simultaneousInputsHaveAPriority : Obligations.SimultaneousInputsHaveAPriority := by
  intro s hok hseen hi u
  have hreset (hrst : u.env.pins.rst = true) : step s = .next u.resetStep := step_of_reset hok hrst
  have habort (hrst : u.env.pins.rst = false) (h : u.env.pins.abort = true) : step s = .next u.abortStep :=
    step_of_abort hok hseen hrst h
  refine ⟨hreset, habort, fun hrst h => ?_, fun h => ?_⟩
  · have hl : u.Live := ⟨hok, hseen, hrst, h⟩
    exact ⟨step_of_acceptEnabled hl, step_of_advanceEnabled hl,
      fun he => step_of_full hl hi (State.emitEnabled_facts he).1 (State.emitEnabled_facts he).2,
      fun ha hv he => State.act_of_waiting hl ha he hv⟩
  · cases hrst : u.env.pins.rst with
    | true =>
      obtain ⟨henv, hline, hempty⟩ := State.resetStep_withdraws u
      exact ⟨_, hreset hrst, congrArg Env.cmds henv, congrArg Env.payload henv, hline, hempty⟩
    | false =>
      obtain ⟨henv, hline, hempty⟩ := State.abortStep_withdraws hi
      exact ⟨_, habort hrst (by simpa [hrst] using h), congrArg Env.cmds henv, congrArg Env.payload henv, hline, hempty⟩

/-- Where the invariant holds a live block's step answers a next state: the latch holds a value inside a frame. -/
theorem State.act_answers {u : State} (hi : u.Inv) (hl : u.Live) : ∃ t, u.act = .next t := by
  rw [State.act_of_live hl]
  split_ifs with ha he hv
  · exact State.acceptStep_answers ha
  · exact ⟨_, rfl⟩
  · exact State.advance_ok hi hv
  · exact ⟨_, rfl⟩

/-- The same of any block that has been reset. -/
theorem step_answers {s : State} (hi : s.drive.Inv) (hok : s.cfg.ok = true) (hseen : s.resetSeen = true) :
    ∃ t, step s = .next t := by
  cases hrst : s.drive.env.pins.rst with
  | true => exact ⟨_, step_of_reset hok hrst⟩
  | false =>
    cases habort : s.drive.env.pins.abort with
    | true => exact ⟨_, step_of_abort hok hseen hrst habort⟩
    | false => exact State.act_answers hi ⟨hok, hseen, hrst, habort⟩

/-- Settles O25: a step is refused for its configuration or before the first reset, and otherwise answers. -/
theorem stepsNeverFault : Obligations.StepsNeverFault := by
  intro s hi
  refine ⟨fun r => ?_, step_answers hi⟩
  cases hok : s.cfg.ok with
  | false => simp [step_of_badConfig hok]
  | true =>
    cases hrst : s.drive.env.pins.rst with
    | true => simp [step_of_reset hok hrst]
    | false =>
      cases hseen : s.resetSeen with
      | false => simp [step_of_noReset hok hseen hrst]
      | true =>
        obtain ⟨t, ht⟩ := step_answers hi hok hseen
        simp [ht]

/-! ### The status word (R25) -/

theorem State.status_slices (s : State) :
    s.status.extractLsb' 4 4 = 0 ∧ s.status.extractLsb' 1 3 = s.err.toCode ∧ s.status.getLsbD 0 = s.busy := by
  simp (disch := omega) only [State.status, BitVec.extractLsb'_append_eq_of_le,
    BitVec.extractLsb'_append_eq_of_add_le, BitVec.getLsbD_append]
  simp

theorem ErrCode.toCode_le (e : ErrCode) : e.toCode.toNat ≤ 4 := by
  cases e <;> decide

/-- Settles O26: the word's three parts are the fields it is put together from. -/
theorem statusWordShowsBusyAndErr : Obligations.StatusWordShowsBusyAndErr := by
  refine ⟨rfl, fun s => ?_⟩
  obtain ⟨hrsvd, herr, hbusy⟩ := s.status_slices
  exact ⟨hrsvd, herr, by rw [herr]; exact s.err.toCode_le, by rw [hbusy, State.busy]; simp⟩

/-! ### What each step writes (R16 to R24) -/

/-- What ADVANCE leaves alone: the latch always, the rest but in the phases that write it. -/
theorem State.advance_frame {s t : State} (hv : s.advanceEnabled = true) (e : s.advance = .next t) :
    t.resetSeen = s.resetSeen ∧ t.latch = s.latch ∧
    (t.idx ≠ s.idx → s.phase = .payload ∧ s.escPend = false) ∧
    (t.lfsr ≠ s.lfsr → s.phase = .payload ∧ s.escPend = false) ∧
    (t.crc ≠ s.crc → s.escPend = false ∧
      (s.phase = .ctrl ∨ s.phase = .payload ∨ s.phase = .version ∨ s.phase = .code)) := by
  rcases State.advance_cases hv e with ⟨_, rfl⟩ | ⟨he, ⟨hp, k, _, rfl⟩ | ⟨hp, k, b, p, _, _, rfl⟩ | ⟨hp, k, _, rfl⟩ |
      ⟨hp, k, _, rfl⟩ | ⟨_, rfl⟩ | ⟨_, rfl⟩ | ⟨_, rfl⟩⟩
  · simp [State.advPending]
  · simp [State.advCtrl, he, hp]
  · simp [State.advPayload, he, hp]
  · simp [State.advVersion, he, hp]
  · simp [State.advCode, he, hp]
  · simp [State.advCrcHi]
  · simp [State.advCrcLo]
  · simp [State.advFlag]

/-- Settles O28: a case for each kind of step, with the registers it writes. -/
theorem registersChangeOnlyInTheirSteps : Obligations.RegistersChangeOnlyInTheirSteps := by
  intro s t _ hrst h u accepts advances emits
  cases State.stepCase h with
  | reset hrst' e => simp [hrst] at hrst'
  | abortIdle _ _ _ e => subst e; simp [u]
  | abort _ ha _ e => subst e; simp [u, ha]
  | start hl ha d ds i _ _ _ e =>
    have hacc : accepts := ⟨hl.abort_released, ha⟩
    subst e
    simp [u, hacc]
  | refuse hl ha d ds c _ _ e =>
    have hacc : accepts := ⟨hl.abort_released, ha⟩
    subst e
    simp [u, hacc]
  | emit hl _ he e =>
    have hem : emits := ⟨hl.abort_released, he⟩
    subst e
    simp [u, hem]
  | advance hl _ _ hv e =>
    have hadv : advances := ⟨hl.abort_released, hv⟩
    obtain ⟨hseen, hlatch, hidx, hlfsr, hcrc⟩ := State.advance_frame hv e
    have henv : t.env.cmds = u.env.cmds ∧
        (t.env.payload ≠ u.env.payload → u.phase = .payload ∧ u.escPend = false) := by
      rcases State.advance_reads hv e with ⟨-, henv, -⟩ | ⟨hready, -, b, p, -, henv, -⟩
      · simp [henv, u]
      · obtain ⟨hp, -, he⟩ := State.plReady_iff.1 hready
        exact ⟨by rw [henv], fun _ => ⟨hp, he⟩⟩
    exact ⟨State.advance_cfg hv e, hseen, fun h => absurd hlatch h, fun h => .inr ⟨hadv, hidx h⟩,
      fun h => .inr ⟨hadv, hlfsr h⟩, fun h => .inr ⟨hadv, hcrc h⟩, fun _ => hadv, fun _ => hadv, fun _ => hadv,
      fun _ => .inl hadv, fun _ => .inl hadv, fun h => absurd henv.1 h, fun h => ⟨hadv, henv.2 h⟩⟩
  | wait _ _ _ _ e => subst e; simp [u]

/-- Settles O29: with a full slot the step is reset, abort, EMIT or none. -/
theorem offeredByteIsHeldUntilTaken : Obligations.OfferedByteIsHeldUntilTaken := by
  intro s t hi hf h
  have hbusy : s.drive.phase ≠ .idle := State.phase_ne_idle_of_full hi hf
  cases State.stepCase h with
  | reset hrst e =>
    obtain ⟨-, hline, hempty⟩ := State.resetStep_withdraws s.drive
    exact .inr (.inr ⟨e ▸ hempty, e ▸ hline, .inl hrst⟩)
  | abortIdle _ _ hp _ => exact absurd hp hbusy
  | abort hrst ha hp e =>
    subst e
    exact .inr (.inr ⟨rfl, by simp [lineOf, outsOf], .inr ha⟩)
  | start _ ha _ _ _ _ _ _ _ => exact absurd (State.acceptEnabled_facts ha).1 hbusy
  | refuse _ ha _ _ _ _ _ _ => exact absurd (State.acceptEnabled_facts ha).1 hbusy
  | emit _ _ he e => exact .inr (.inl ⟨(State.emitEnabled_facts he).2, e ▸ rfl, e ▸ rfl⟩)
  | advance _ _ _ hv _ =>
    have hempty : s.outFull = false := (State.advanceEnabled_facts hv).2.2
    simp [hf] at hempty
  | wait _ _ _ _ e => exact .inl ⟨e ▸ hf, e ▸ rfl, e ▸ rfl, e ▸ rfl⟩

/-- The payload channel transfers in the step at these input levels (R29, R36). -/
def State.ReadsPayload (u : State) : Prop := u.Live ∧ u.plReady = true ∧ u.plValid = true

theorem State.ReadsPayload.advances {u : State} (h : u.ReadsPayload) (hi : u.Inv) : u.advanceEnabled = true := by
  obtain ⟨-, hready, hvalid⟩ := h
  obtain ⟨hp, hf, -⟩ := State.plReady_iff.1 hready
  exact State.advanceEnabled_of_supplied hi (by simp [hp]) hf (.inr hvalid)

/-- Settles O30: where the channel transfers the step is ADVANCE in `PAYLOAD`; any other step leaves the payload source
alone. -/
theorem payloadIsReadOnlyAtItsHandshake : Obligations.PayloadIsReadOnlyAtItsHandshake := by
  intro s t hi h
  have hnot (hv : s.drive.advanceEnabled = false) : ¬ s.drive.ReadsPayload := fun hr => by
    rw [hr.advances hi] at hv
    cases hv
  have hidle (ha : s.drive.acceptEnabled = true) : ¬ s.drive.ReadsPayload := fun hr =>
    (State.advanceEnabled_facts (hr.advances hi)).1 (State.acceptEnabled_facts ha).1
  cases State.stepCase h with
  | reset hrst e =>
    refine .inr ⟨fun ⟨⟨_, _, hrst', _⟩, _⟩ => by simp [hrst] at hrst', e ▸ rfl, ?_⟩
    subst e
    simp [paysOf]
  | abortIdle _ habort _ e =>
    exact .inr ⟨fun ⟨⟨_, _, _, habort'⟩, _⟩ => by simp [habort] at habort', e ▸ rfl, e ▸ rfl⟩
  | abort _ habort _ e =>
    refine .inr ⟨fun ⟨⟨_, _, _, habort'⟩, _⟩ => by simp [habort] at habort', e ▸ rfl, ?_⟩
    subst e
    simp [paysOf]
  | start _ ha _ _ _ _ _ _ e =>
    refine .inr ⟨hidle ha, e ▸ rfl, ?_⟩
    subst e
    simp [paysOf]
  | refuse _ ha _ _ _ _ _ e =>
    refine .inr ⟨hidle ha, e ▸ rfl, ?_⟩
    subst e
    simp [paysOf]
  | emit _ _ he e =>
    have hfull : s.outFull = true := (State.emitEnabled_facts he).1
    refine .inr ⟨hnot (by simp [State.advanceEnabled, hfull]), e ▸ rfl, ?_⟩
    subst e
    cases hL : s.outLast <;> simp [hL, paysOf]
  | advance hl _ _ hv e =>
    rcases State.advance_reads hv e with ⟨hready, henv, hh⟩ | ⟨hready, hvalid, b, p, hb, henv, hh⟩
    · exact .inr ⟨fun ⟨_, hready', _⟩ => by simp [hready] at hready', by rw [henv], by rw [hh]; rfl⟩
    · exact .inl ⟨hl, hready, hvalid, b, p, hb, by rw [henv], hh⟩
  | wait _ _ _ hv e => exact .inr ⟨hnot hv, e ▸ rfl, e ▸ rfl⟩

/-- Settles O31: only the EMIT of a frame's last byte records two events. -/
theorem historyOnlyGrows : Obligations.HistoryOnlyGrows := by
  intro s t h
  cases State.stepCase h with
  | reset _ e => exact ⟨[.reset], e ▸ rfl, by simp⟩
  | abortIdle _ _ _ e => exact ⟨[], by simp [e], by simp⟩
  | abort _ _ _ e => exact ⟨[.aborted], e ▸ rfl, by simp⟩
  | start _ _ _ _ i _ _ _ e => exact ⟨[.accept (encode i)], e ▸ rfl, by simp⟩
  | refuse _ _ _ _ c _ _ e => exact ⟨[.refused c], e ▸ rfl, by simp⟩
  | emit _ _ _ e => exact ⟨_, e ▸ State.emit_history _, by cases s.drive.outLast <;> simp⟩
  | advance _ _ _ hv e =>
    rcases State.advance_history hv e with hh | ⟨b, hh⟩
    · exact ⟨[], by simp [hh], by simp⟩
    · exact ⟨[.pay b], hh, by simp⟩
  | wait _ _ _ _ e => exact ⟨[], by simp [e], by simp⟩

/-! ### Inside a frame the command port is not read (R45) -/

/-- The same state with other descriptors on the command port and another valid level, for this step alone. -/
def State.withPort (s : State) (ds : List Desc) (v : Bool) : State :=
  { s with env := { s.env with cmds := ds, pins := { s.env.pins with cmdValid := v }, script := [] } }

section Port

variable {u t : State} (ds : List Desc) (v : Bool)

theorem State.putStuffed_withPort (b : Byte) : (u.withPort ds v).putStuffed b = (u.putStuffed b).withPort ds v := by
  have hcfg : (u.withPort ds v).cfg = u.cfg := rfl
  rw [State.putStuffed, State.putStuffed, hcfg]
  cases isReserved u.cfg.k b <;> rfl

theorem State.advance_withPort (hv : u.advanceEnabled = true) (e : u.advance = .next t) :
    (u.withPort ds v).advance = .next (t.withPort ds v) := by
  rcases State.advance_cases hv e with ⟨he, rfl⟩ | ⟨he, ⟨hp, k, hk, rfl⟩ | ⟨hp, k, b, p, hk, hq, rfl⟩ |
      ⟨hp, k, hk, rfl⟩ | ⟨hp, k, hk, rfl⟩ | ⟨hp, rfl⟩ | ⟨hp, rfl⟩ | ⟨hp, rfl⟩⟩
  · exact State.advance_of_pending he
  · rw [State.advance_ctrl (s := u.withPort ds v) he hp hk, State.advCtrl, State.putStuffed_absorb,
      State.putStuffed_withPort, State.advCtrl, State.putStuffed_absorb]
    rfl
  · rw [State.advance_payload (s := u.withPort ds v) he hp hk hq, State.advPayload_eq (s := u.withPort ds v) hq,
      State.putStuffed_withPort, State.advPayload_eq hq]
    rfl
  · rw [State.advance_version (s := u.withPort ds v) he hp hk, State.advVersion, State.putStuffed_absorb,
      State.putStuffed_withPort, State.advVersion, State.putStuffed_absorb]
    rfl
  · rw [State.advance_code (s := u.withPort ds v) he hp hk, State.advCode, State.putStuffed_absorb,
      State.putStuffed_withPort, State.advCode, State.putStuffed_absorb]
    rfl
  · rw [State.advance_crcHi (s := u.withPort ds v) he hp, State.advCrcHi, State.putStuffed_withPort]
    rfl
  · rw [State.advance_crcLo (s := u.withPort ds v) he hp, State.advCrcLo, State.putStuffed_withPort]
    rfl
  · exact State.advance_flag (s := u.withPort ds v) he hp

/-- The step of a busy block commutes with a change of the command port. -/
theorem State.act_withPort (hp : u.phase ≠ .idle) (h : u.act = .next t) :
    (u.withPort ds v).act = .next (t.withPort ds v) := by
  have hbusy : (u.withPort ds v).acceptEnabled = false := State.acceptEnabled_of_busy hp
  have hemit : (u.withPort ds v).emitEnabled = u.emitEnabled := rfl
  have hadvance : (u.withPort ds v).advanceEnabled = u.advanceEnabled := rfl
  obtain ⟨hok, ⟨hrst, rfl⟩ | ⟨hrst, hseen, ⟨habort, rfl⟩ | ⟨habort, hcases⟩⟩⟩ := State.act_cases h
  · exact step_of_reset (s := u.withPort ds v) hok hrst
  · have := step_of_abort (s := u.withPort ds v) hok hseen hrst habort
    rw [State.abortStep_of_busy hp]
    exact this.trans (congrArg _ (State.abortStep_of_busy (u := u.withPort ds v) hp))
  · have hl : (u.withPort ds v).Live := ⟨hok, hseen, hrst, habort⟩
    rw [State.act_of_live hl, hbusy, hemit, hadvance]
    rcases hcases with ⟨ha, -⟩ | ⟨-, he, rfl⟩ | ⟨-, he, hv, e⟩ | ⟨-, he, hv, rfl⟩
    · exact absurd (State.acceptEnabled_facts ha).1 hp
    · simp only [he, if_true, Bool.false_eq_true, if_false]
      rfl
    · simp only [he, hv, if_true, Bool.false_eq_true, if_false]
      exact State.advance_withPort ds v hv e
    · simp only [he, hv, Bool.false_eq_true, if_false]

end Port

/-- Settles O32: at the step's input levels, with no further move, the two steps differ in the port alone. -/
theorem busyBlockIgnoresTheCommandPort : Obligations.BusyBlockIgnoresTheCommandPort := by
  intro s t ds v hp h
  have hdrive : (s.drive.withPort ds v).drive = s.drive.withPort ds v := State.drive_of_no_script rfl
  have hact : step (s.drive.withPort ds v) = (s.drive.withPort ds v).act := by rw [step_eq_act, hdrive]
  exact hact.trans (State.act_withPort ds v hp h)

/-! ### Waiting (R111) -/

theorem State.Stuck.live {s : State} (h : s.Stuck) (hok : s.cfg.ok = true) (hseen : s.resetSeen = true) : s.Live :=
  let ⟨_, hrst, habort, _, _⟩ := h
  ⟨hok, hseen, hrst, habort⟩

theorem State.Stuck.act {s : State} (h : s.Stuck) (hok : s.cfg.ok = true) (hseen : s.resetSeen = true) :
    s.act = .next s := by
  have hl := h.live hok hseen
  obtain ⟨hp, -, -, he, hv⟩ := h
  exact State.act_of_waiting hl (State.acceptEnabled_of_busy hp) he hv

/-- A block that needs a payload byte none is offered is stuck. -/
theorem State.stuck_of_starved {s : State} (hl : s.Live) (hready : s.plReady = true) (hvalid : s.plValid = false) :
    s.Stuck := by
  obtain ⟨hp, hf, he⟩ := State.plReady_iff.1 hready
  obtain ⟨-, -, hrst, habort⟩ := hl
  have hbusy : s.phase ≠ .idle := by simp [hp]
  exact ⟨hbusy, hrst, habort, by simp [State.emitEnabled, hf],
    (State.advanceEnabled_eq_false_iff hbusy (by simp [hp]) hf).2 ⟨he, hp, hvalid⟩⟩

/-- A block whose full slot the sink does not take is stuck. -/
theorem State.stuck_of_untaken {s : State} (hl : s.Live) (hi : s.Inv) (hf : s.outFull = true)
    (hready : s.env.pins.outReady = false) : s.Stuck :=
  let ⟨_, _, hrst, habort⟩ := hl
  ⟨State.phase_ne_idle_of_full hi hf, hrst, habort, by simp [State.emitEnabled, hready],
    by simp [State.advanceEnabled, hf]⟩

/-- Settles O57: a stuck block's step changes nothing, so that with its environment at rest it stays stuck. -/
theorem starvedBlockWaitsForEver : Obligations.StarvedBlockWaitsForEver := by
  refine ⟨fun s hok hseen h => h.act hok hseen, fun s n hok hseen hscript h => ?_, fun s => State.stuck_of_starved,
    fun s => State.stuck_of_untaken, fun s hl hready hvalid => ?_⟩
  · have hstep : step s = .next s := by
      rw [step_eq_act, State.drive_of_no_script hscript]
      exact h.act hok hseen
    refine ⟨?_, decide_eq_true h.1⟩
    induction n with
    | zero => rfl
    | succ n ih => rw [run_succ hstep, ih]
  · exact (State.stuck_of_starved hl hready hvalid).act hl.1 hl.2.1

/-! ### The reset state -/

/-- Settles O33: between frames the first two ask nothing, and a history of one `reset` says nothing of the line. -/
theorem resetMeetsTheInvariants : Obligations.ResetMeetsTheInvariants :=
  ⟨State.inv_of_idle rfl rfl rfl, fun hp => absurd rfl hp,
    (State.resetStep_lineInv (s := { State.reset with history := [] }) rfl).line⟩

end Sys2Proof.Machine
end
